-- ==== Sys2Proof/Word.lean ====
section
/-! DEFINITION. The value types of the block: bytes, 16-bit lengths, MessageId, Packet, Frame and the
two-byte checksum (00_scope.md R7, R10, R11, R12; 10_state.md R14). -/

namespace Sys2Proof

/-- A byte: an unsigned 8-bit value (R7). -/
abbrev Byte := BitVec 8

/-- A u16: an unsigned 16-bit value (R7). -/
abbrev U16 := BitVec 16

/-- R10: a MessageId is the pair of a class byte and an id byte; two are equal exactly when both bytes are. -/
structure MessageId where
  /-- the class byte -/
  cls : Byte
  /-- the id byte -/
  id : Byte
  deriving DecidableEq, Repr

/-- R11: a packet of the receive FIFO. -/
structure Packet where
  id : MessageId
  payload : List Byte
  deriving DecidableEq, Repr

/-- R12: the logical unit a wire frame carries. -/
structure Frame where
  id : MessageId
  payload : List Byte
  deriving DecidableEq, Repr

/-- The two-byte running accumulator `(a, b)` of R14, R15 and R17. -/
structure Cksum where
  a : Byte
  b : Byte
  deriving DecidableEq, Repr

end Sys2Proof
end

