-- ==== Sys2Proof/Machine/Operands.lean ====
section
/-! DEFINITION. Byte order and operand forms: every multi-byte field of the wire and of the command interface is
little-endian and unsigned (20_memory.md R32, R33; 30_encoding.md R50, R58). -/

namespace Sys2Proof.Machine

/-- R7: `lo8(v) = v mod 256`. -/
def lo8 (v : Nat) : Byte := BitVec.ofNat 8 v

/-- R7: `hi8(v) = (v div 256) mod 256`. -/
def hi8 (v : Nat) : Byte := BitVec.ofNat 8 (v / 256)

/-- R50: `len = zext_16(lenLo) + 256 * zext_16(lenHi)`. -/
def len16 (lo hi : Byte) : U16 := lo.zeroExtend 16 + 256#16 * hi.zeroExtend 16

/-- `n` bytes of `v`, least significant first (R33, R59). -/
def leBytes : Nat → Nat → List Byte
  | 0, _ => []
  | n + 1, v => lo8 v :: leBytes n (v / 256)

/-- The `n` MessageIds of format CF, class byte before id byte (R56), and the bytes after them; `none` where the
bytes end early. -/
def takeIds : Nat → List Byte → Option (List MessageId × List Byte)
  | 0, bs => some ([], bs)
  | n + 1, c :: i :: bs =>
    match takeIds n bs with
    | some (ids, rest) => some (⟨c, i⟩ :: ids, rest)
    | none => none
  | _ + 1, _ => none

/-- The bytes of a list of MessageIds in format CF, class before id (R56). -/
def idBytes : List MessageId → List Byte
  | [] => []
  | m :: ms => m.cls :: m.id :: idBytes ms

/-- The `n` payload bytes of format CE and the bytes after them (R56); `none` where the bytes end early. -/
def takeBytes (n : Nat) (bs : List Byte) : Option (List Byte × List Byte) :=
  if bs.length < n then none else some (bs.take n, bs.drop n)

end Sys2Proof.Machine
end

