-- ==== Sys2Proof/Syntax.lean ====
section
/-! DEFINITION. The commands of the block, one constructor per row of spec/opcode_table.json, with the abstract
operands of 30_encoding.md R58. -/

namespace Sys2Proof

/-- R58: the commands and their operands. -/
inductive Instr where
  /-- CKRST (R67): reset the checksum accumulator. -/
  | ckrst
  /-- CKADD b (R68): add one byte to the accumulator. -/
  | ckadd (b : Byte)
  /-- CKVAL (R69): read the accumulator. -/
  | ckval
  /-- CKMAT ra, rb (R70): compare the accumulator with a received checksum. -/
  | ckmat (ra rb : Byte)
  /-- ENC id, payload (R80): encode one frame. -/
  | enc (id : MessageId) (payload : List Byte)
  /-- RXB b (R83): feed one input byte to the parser. -/
  | rxb (b : Byte)
  /-- PRST (R100): restart the parser. -/
  | prst
  /-- FILT id (R101): install a one-member acceptance filter. -/
  | filt (id : MessageId)
  /-- FILTS ids (R102): install an acceptance filter. -/
  | filts (ids : List MessageId)
  /-- QCLR (R103): empty the receive FIFO. -/
  | qclr
  /-- QPOP (R104): pop one packet. -/
  | qpop
  /-- FRCNT (R105): read the good-frame counter. -/
  | frcnt
  deriving DecidableEq, Repr

end Sys2Proof
end

