-- ==== Sys2Proof/Config.lean ====
section
/-! DEFINITION. The implementation parameters of 00_scope.md R6: the three the spec leaves open, as a record,
the fixed ones as constants, and the one free value (the MessageId hash, R77). -/

namespace Sys2Proof

/-- The parameters R6 marks OPEN, with the spec's default values. A machine's parameters never change
(log entry 3). -/
structure Config where
  /-- FIFO_DEPTH: the capacity of the receive FIFO in packets, `none` for `INF` (R6, D6). -/
  fifoDepth : Option Nat := none
  /-- FILTER_SLOTS: the most distinct MessageIds the acceptance filter holds (R6, D7). -/
  filterSlots : Nat := 8
  /-- W_FRC: the width in bits of the good-frame counter (R6, D9). -/
  wFrc : Nat := 32
  deriving DecidableEq, Repr

/-- R6: FIFO_DEPTH is a positive integer or INF, FILTER_SLOTS at least 2, W_FRC a multiple of 8 of at least 16. -/
def Config.wf (c : Config) : Bool :=
  c.fifoDepth != some 0 && decide (2 ≤ c.filterSlots) && decide (16 ≤ c.wFrc) && c.wFrc % 8 == 0

/-- SYNC1 (R6, R48). -/
def Config.sync1 : Byte := 0xB5

/-- SYNC2 (R6, R48). -/
def Config.sync2 : Byte := 0x62

/-- MAX_LEN: the largest payload length the parser accepts (R6). -/
def Config.maxLen : Nat := 1000

/-- ENC_MAX: the largest payload length the encoder accepts (R6). -/
def Config.encMax : Nat := 65535

/-- SENTINEL_ID (R6, R53). -/
def Config.sentinelId : MessageId := ⟨0x00, 0x02⟩

/-- ACK_ID, used by the host alone (R6, R53). -/
def Config.ackId : MessageId := ⟨0x05, 0x01⟩

/-- NAK_ID, used by the host alone (R6, R53). -/
def Config.nakId : MessageId := ⟨0x05, 0x00⟩

/-- FREE VALUE (log entry 13): the hash of a MessageId, a function of both its bytes of which the spec gives
nothing more (R77, U18); the block never shows it. -/
opaque Config.midHash : Byte → Byte → Nat

end Sys2Proof
end

