-- ==== Sys2Proof/WellFormed.lean ====
section
/-! DEFINITION. Which abstract commands a byte encoding can express (30_encoding.md R58, R63; log entry 17). -/

namespace Sys2Proof

/-- R58: an ENC payload has at most 65535 bytes (its length operand is 16 bits wide, R63), and a FILTS list at most
255 MessageIds (its count operand is one byte); every other operand value is legal (R62). -/
def Instr.wf : Instr → Bool
  | .ckrst => true
  | .ckadd _ => true
  | .ckval => true
  | .ckmat _ _ => true
  | .enc _ payload => decide (payload.length ≤ Config.encMax)
  | .rxb _ => true
  | .prst => true
  | .filt _ => true
  | .filts ids => decide (ids.length ≤ 255)
  | .qclr => true
  | .qpop => true
  | .frcnt => true

end Sys2Proof
end

