-- ==== Sys2Proof/Decode.lean ====
section
/-! DEFINITION. The command encoding of 30_encoding.md R55 to R62: the opcode map, the formats, the decoder (total on
any bytes, rejecting by name) and the encoder. -/

namespace Sys2Proof

open Sys2Proof.Machine

/-- The twelve rows of the opcode map R57. -/
inductive Mnemonic where
  | ckrst | ckadd | ckval | ckmat | enc | rxb | prst | filt | filts | qclr | qpop | frcnt
  deriving DecidableEq, Repr

/-- The command formats of R56. -/
inductive Format where
  /-- `op` -/
  | c0
  /-- `op b` -/
  | c1
  /-- `op x y` -/
  | c2
  /-- `op c i lL lH p[0] .. p[len-1]` -/
  | ce
  /-- `op n c0 i0 .. c(n-1) i(n-1)` -/
  | cf
  deriving DecidableEq, Repr

/-- Why the decoder gives a byte sequence no command. -/
inductive DecodeError where
  /-- There is no byte at all: no command is pending (log entry 5). -/
  | noCommand
  /-- R61: the opcode is not in the map. -/
  | illegalOpcode (op : Byte)
  /-- R62: the bytes end before the length the format gives (R60); the value is the opcode byte (R113). -/
  | truncated (op : Byte)
  deriving DecidableEq, Repr

/-- The rows of R57, in its order. -/
def opcodeMap : List Mnemonic :=
  [.ckrst, .ckadd, .ckval, .ckmat, .enc, .rxb, .prst, .filt, .filts, .qclr, .qpop, .frcnt]

/-- R57: the opcode column. -/
def Mnemonic.opcode : Mnemonic → Byte
  | .ckrst => 0x01
  | .ckadd => 0x02
  | .ckval => 0x03
  | .ckmat => 0x04
  | .enc => 0x10
  | .rxb => 0x20
  | .prst => 0x21
  | .filt => 0x22
  | .filts => 0x23
  | .qclr => 0x24
  | .qpop => 0x25
  | .frcnt => 0x26

/-- R57: the format column. -/
def Mnemonic.format : Mnemonic → Format
  | .ckrst => .c0
  | .ckadd => .c1
  | .ckval => .c0
  | .ckmat => .c2
  | .enc => .ce
  | .rxb => .c1
  | .prst => .c0
  | .filt => .c2
  | .filts => .cf
  | .qclr => .c0
  | .qpop => .c0
  | .frcnt => .c0

/-- The row of R57 an opcode byte selects (R55); `none` for an illegal opcode (R61). -/
def mnemonicOf (op : Byte) : Option Mnemonic :=
  opcodeMap.find? fun m => m.opcode == op

/-- R56, R58: the operands of a command, read from the bytes after the opcode, and the bytes after the command;
`none` where the bytes end early. -/
def decodeOperands : Mnemonic → List Byte → Option (Instr × List Byte)
  | .ckrst, bs => some (.ckrst, bs)
  | .ckadd, bs =>
    match bs with
    | b :: rest => some (.ckadd b, rest)
    | [] => none
  | .ckval, bs => some (.ckval, bs)
  | .ckmat, bs =>
    match bs with
    | ra :: rb :: rest => some (.ckmat ra rb, rest)
    | _ => none
  | .enc, bs =>
    match bs with
    | c :: i :: lL :: lH :: rest =>
      match takeBytes (len16 lL lH).toNat rest with
      | some (payload, rest') => some (.enc ⟨c, i⟩ payload, rest')
      | none => none
    | _ => none
  | .rxb, bs =>
    match bs with
    | b :: rest => some (.rxb b, rest)
    | [] => none
  | .prst, bs => some (.prst, bs)
  | .filt, bs =>
    match bs with
    | c :: i :: rest => some (.filt ⟨c, i⟩, rest)
    | _ => none
  | .filts, bs =>
    match bs with
    | n :: rest =>
      match takeIds n.toNat rest with
      | some (ids, rest') => some (.filts ids, rest')
      | none => none
    | [] => none
  | .qclr, bs => some (.qclr, bs)
  | .qpop, bs => some (.qpop, bs)
  | .frcnt, bs => some (.frcnt, bs)

/-- R55, R60: the first command of a byte stream and the bytes after it. -/
def decode : List Byte → Except DecodeError (Instr × List Byte)
  | [] => .error .noCommand
  | op :: bs =>
    match mnemonicOf op with
    | none => .error (.illegalOpcode op)
    | some m =>
      match decodeOperands m bs with
      | none => .error (.truncated op)
      | some r => .ok r

/-- The row of R57 a command belongs to. -/
def Instr.mnemonic : Instr → Mnemonic
  | .ckrst => .ckrst
  | .ckadd _ => .ckadd
  | .ckval => .ckval
  | .ckmat _ _ => .ckmat
  | .enc _ _ => .enc
  | .rxb _ => .rxb
  | .prst => .prst
  | .filt _ => .filt
  | .filts _ => .filts
  | .qclr => .qclr
  | .qpop => .qpop
  | .frcnt => .frcnt

/-- R56, R58: the bytes of a well-formed command. -/
def encode : Instr → List Byte
  | .ckrst => [0x01]
  | .ckadd b => [0x02, b]
  | .ckval => [0x03]
  | .ckmat ra rb => [0x04, ra, rb]
  | .enc id payload => [0x10, id.cls, id.id, lo8 payload.length, hi8 payload.length] ++ payload
  | .rxb b => [0x20, b]
  | .prst => [0x21]
  | .filt id => [0x22, id.cls, id.id]
  | .filts ids => [0x23, lo8 ids.length] ++ idBytes ids
  | .qclr => [0x24]
  | .qpop => [0x25]
  | .frcnt => [0x26]

/-- The byte stream of a command sequence (R55). -/
def encodeAll : List Instr → List Byte
  | [] => []
  | i :: is => encode i ++ encodeAll is

/-- R60: the length in bytes of the command that begins a byte sequence; a byte the sequence does not give counts as
zero, and an illegal opcode counts one byte. -/
def commandLength (bs : List Byte) : Nat :=
  match mnemonicOf (bs.getD 0 0) with
  | none => 1
  | some m =>
    match m.format with
    | .c0 => 1
    | .c1 => 2
    | .c2 => 3
    | .ce => 5 + (len16 (bs.getD 3 0) (bs.getD 4 0)).toNat
    | .cf => 2 + 2 * (bs.getD 1 0).toNat

/-- The bytes of a table word: byte `k` of the command is bits `8k+7 .. 8k` of `w`, and every byte the command has
above the `nbits` the table gives is zero (log entry 14). -/
def tableWordBytes (nbits w : Nat) : List Byte :=
  let given := leBytes ((nbits + 7) / 8) w
  given ++ List.replicate (commandLength given - given.length) 0

/-- The command the decoder reads from a table word; `none` where it refuses. -/
def decodeTableWord (nbits w : Nat) : Option Instr :=
  match decode (tableWordBytes nbits w) with
  | .ok (i, _) => some i
  | .error _ => none

end Sys2Proof
end

