-- ==== Sys2Proof/Machine/State.lean ====
section
/-! DEFINITION. The state of the block (10_state.md R13), its fault and refusal reasons (60_exceptions.md R111 to
R113) and the state after RESET (70_reset_and_hazards.md R125). -/

namespace Sys2Proof.Machine

/-- R16: the nine values of `P.state`, in the order of their binary codes 0 to 8. -/
inductive ParserState where
  | init | sync1 | cls | id | len1 | len2 | data | crc1 | crc2
  deriving DecidableEq, Repr

/-- The bytes of the payload buffer that are not zero, by index (R41): indices strictly rising, and no entry equal to
what an unlisted index reads as (log entry 9). -/
abbrev Memory := List Host.Cell

/-- The stream parser's state `P` (R13). -/
structure Parser where
  /-- R16 -/
  state : ParserState
  /-- R17: the parser's own accumulator -/
  ck : Cksum
  /-- R18: header latches -/
  cls : Byte
  /-- R18 -/
  id : Byte
  /-- R18 -/
  lenLo : Byte
  /-- R18 -/
  lenHi : Byte
  /-- R18 -/
  len : U16
  /-- R19: the payload offset -/
  ofs : U16
  /-- R20: the payload buffer of MAX_LEN bytes -/
  buf : Memory
  /-- R21: the received ckA -/
  rxA : Byte
  /-- R21: the received ckB -/
  rxB : Byte
  /-- R22: the acceptance filter, a set: strictly rising by `(class, id)`, no repeats (log entry 11) -/
  filter : List MessageId
  /-- R23: the receive FIFO, the oldest packet first -/
  fifo : List Packet
  /-- R24: the good-frame counter, below `2^W_FRC` (log entry 12) -/
  frc : Nat
  deriving DecidableEq, Repr

/-- R111: the one fault reason the model records. -/
inductive FaultReason where
  /-- F1: an enqueue found the FIFO of finite depth full (R95). -/
  | fifoOverflow
  deriving DecidableEq, Repr

/-- The block's state (R13), and beside it what the model itself adds: `cfg` (log entry 3), `commands` (log entry 1),
`responses` (log entry 2) and `resetIn` (log entry 6). -/
structure State where
  /-- The implementation parameters (R6); no step writes them. -/
  cfg : Config
  /-- R14: the checksum unit's accumulator `CK`. -/
  ck : Cksum
  /-- R13: the stream parser `P`. -/
  p : Parser
  /-- R13, R111: the recorded fault, sticky. -/
  fault : Option FaultReason
  /-- The bytes of the command stream the block has not executed yet (R38, R55). -/
  commands : List Byte
  /-- The response of every command executed since RESET, the first first (R9, R124). -/
  responses : List (List Byte)
  /-- The RESET input is asserted (R125). -/
  resetIn : Bool
  deriving DecidableEq, Repr

/-- Why a step ends in a fault: R9's `Fault(State', FaultReason)`, one constructor for each reason, holding the state
the fault leaves (log entry 4). -/
inductive Fault where
  /-- F1 FifoOverflow (R111, R113): raised by RXB in `Crc2` when the FIFO of finite depth is full (R95), and by every
  later step while the fault stands (R114). `after` is the state left: as before the step, but for `fault` (R116).
  SAFE: the model stops where an implementation that drops or overwrites would go on. -/
  | fifoOverflow (after : State)
  deriving DecidableEq, Repr

/-- Why a command has no meaning (R112, R113). -/
inductive Refusal where
  /-- Raised by `exec`'s arm of a command that has no meaning yet; SAFE. No arm does. -/
  | notModelled (mnemonic : String)
  /-- X1 (R61): raised when the next opcode byte is not in the opcode map; SAFE. -/
  | illegalOpcode (op : Byte)
  /-- X2 (R62): raised when the command stream ends before the command's length (R60); SAFE. -/
  | truncated (op : Byte)
  /-- X3 (R62, R102): raised by FILTS when its distinct MessageIds number more than FILTER_SLOTS; holds their number;
  SAFE. -/
  | filterOverCapacity (count : Nat)
  /-- X4 (R63): raised by an abstract ENC whose payload is longer than ENC_MAX; holds its length; SAFE. -/
  | payloadTooLong (length : Nat)
  deriving DecidableEq, Repr

/-- R125: the parser after RESET; the buffer lists nothing (log entry 9). -/
def Parser.reset : Parser where
  state := .init
  ck := ⟨0, 0⟩
  cls := 0
  id := 0
  lenLo := 0
  lenHi := 0
  len := 0
  ofs := 0
  buf := []
  rxA := 0
  rxB := 0
  filter := []
  fifo := []
  frc := 0

/-- R125: the state after RESET of a block with the parameters `cfg`. -/
def State.resetWith (cfg : Config) : State where
  cfg := cfg
  ck := ⟨0, 0⟩
  p := Parser.reset
  fault := none
  commands := []
  responses := []
  resetIn := false

/-- R125: the state after RESET, with the default parameters of R6. -/
def State.reset : State := State.resetWith {}

end Sys2Proof.Machine
end

