-- ==== Sys2Proof/Machine/Ops.lean ====
section
/-! DEFINITION. The named operations over the state: the accumulator law, the payload buffer, the filter, the FIFO,
responses, raising a fault, RESET, and fetching the next command. -/

namespace Sys2Proof.Machine

/-! ### The accumulator (R68, R71) -/

/-- R68: `a <- (a + b) mod 256`, then `b <- (b + a) mod 256` with the new `a`. -/
def addByte (x : Cksum) (v : Byte) : Cksum :=
  let a := x.a + v
  ⟨a, x.b + a⟩

/-- R71: feeding a byte sequence into an accumulator. -/
def feed : Cksum → List Byte → Cksum
  | x, [] => x
  | x, v :: s => feed (addByte x v) s

/-! ### The payload buffer (R20, R41) -/

/-- What an index of the payload buffer that nothing has written reads as: DESIGN CHOICE (log entry 9). -/
def Memory.unlisted : Byte := 0

/-- The canonical form: indices strictly rising and below MAX_LEN, no entry equal to `unlisted`. -/
abbrev Memory.wf (m : Memory) : Prop :=
  m.Pairwise (fun c d => c.1 < d.1) ∧ ∀ c ∈ m, c.1 < Config.maxLen ∧ c.2 ≠ Memory.unlisted

/-- Read one byte. -/
def Memory.read : Memory → Nat → Byte
  | [], _ => Memory.unlisted
  | (k, v) :: m, i => if k = i then v else Memory.read m i

/-- Put a cell at its place in a list of rising indices. -/
def Memory.insertCell (i : Nat) (v : Byte) : Memory → Memory
  | [] => [(i, v)]
  | (k, w) :: m => if i < k then (i, v) :: (k, w) :: m else (k, w) :: Memory.insertCell i v m

/-- Write one byte, keeping the canonical form. -/
def Memory.write (m : Memory) (i : Nat) (v : Byte) : Memory :=
  let others := m.filter fun c => c.1 != i
  if v = Memory.unlisted then others else Memory.insertCell i v others

/-- R8: `BufWrite(i, v)`. The buffer has MAX_LEN bytes (R20); no byte stands at or past its end (log entry 9). -/
def bufWrite (m : Memory) (i : Nat) (v : Byte) : Memory :=
  if i < Config.maxLen then Memory.write m i v else m

/-- R8: `P.buf[0..n)`. -/
def bufPrefix (m : Memory) (n : Nat) : List Byte :=
  (List.range n).map m.read

/-! ### The acceptance filter (R22) -/

/-- The order that makes a set of MessageIds one list (log entry 11). -/
def midKey (m : MessageId) : Nat := 256 * m.cls.toNat + m.id.toNat

/-- Insert a MessageId into a set. -/
def filterInsert (m : MessageId) : List MessageId → List MessageId
  | [] => [m]
  | k :: ks =>
    if m = k then k :: ks
    else if midKey m < midKey k then m :: k :: ks
    else k :: filterInsert m ks

/-- R102: a list of MessageIds taken as a set: duplicates collapse, order is discarded. -/
def filterOfList : List MessageId → List MessageId
  | [] => []
  | m :: ms => filterInsert m (filterOfList ms)

/-- R22, R94: an empty filter admits every good frame, another one its members. -/
def filterAdmits (filter : List MessageId) (m : MessageId) : Bool :=
  filter.isEmpty || filter.contains m

/-! ### The receive FIFO (R23, R95) -/

/-- R95: push a packet at the tail; the fault when the FIFO has a finite depth and is full. -/
def enqueue (cfg : Config) (pkt : Packet) (p : Parser) : Except FaultReason Parser :=
  if cfg.fifoDepth = some p.fifo.length then .error .fifoOverflow
  else .ok { p with fifo := p.fifo ++ [pkt] }

/-- R11: the sentinel error packet. -/
def sentinel : Packet := ⟨Config.sentinelId, []⟩

/-- R59: a packet in QPOP's response, after the status byte. -/
def packetBytes (pkt : Packet) : List Byte :=
  [pkt.id.cls, pkt.id.id, lo8 pkt.payload.length, hi8 pkt.payload.length] ++ pkt.payload

/-! ### Named updates of the state -/

/-- Replace the checksum unit's accumulator. -/
def State.setCk (s : State) (x : Cksum) : State := { s with ck := x }

/-- Replace the parser. -/
def State.setP (s : State) (p : Parser) : State := { s with p := p }

/-- Record a fault (R111). -/
def State.setFault (s : State) (r : FaultReason) : State := { s with fault := some r }

/-- Record one command's response (R9). -/
def State.addResponse (s : State) (r : List Byte) : State := { s with responses := s.responses ++ [r] }

/-- Replace the command stream that is still to be executed. -/
def State.setCommands (s : State) (bs : List Byte) : State := { s with commands := bs }

/-- R16: the parser's state transition. -/
def Parser.setState (p : Parser) (x : ParserState) : Parser := { p with state := x }

/-- Replace the acceptance filter (R22). -/
def Parser.setFilter (p : Parser) (f : List MessageId) : Parser := { p with filter := f }

/-- Replace the FIFO (R23). -/
def Parser.setFifo (p : Parser) (q : List Packet) : Parser := { p with fifo := q }

/-- R20: `P.buf[0..P.ofs)`, the defined content of the payload buffer. -/
def Parser.payload (p : Parser) : List Byte := bufPrefix p.buf p.ofs.toNat

/-- R16, D22: the binary code of a parser state, four bits, for an implementation that needs one; not observable. -/
def parserStateCode : ParserState → BitVec 4
  | .init => 0
  | .sync1 => 1
  | .cls => 2
  | .id => 3
  | .len1 => 4
  | .len2 => 5
  | .data => 6
  | .crc1 => 7
  | .crc2 => 8

/-! ### How a command ends (R8, R9) -/

/-- R8: `Emit(seq)`: the command ends with the response `seq`. -/
def emit (r : List Byte) (s : State) : Host.Outcome State Fault Refusal := .next (s.addResponse r)

/-- The step outcome of a fault reason with the state it leaves. -/
def faultOf (r : FaultReason) (after : State) : Fault :=
  match r with
  | .fifoOverflow => .fifoOverflow after

/-- R116: raising a fault is precise: the state is left as before the step, but for `fault`. The block has no trap
entry (R115), so this is the one operation a step that cannot go on ends in. -/
def raiseFault (r : FaultReason) (s : State) : Host.Outcome State Fault Refusal :=
  .fault (faultOf r (s.setFault r))

/-- R114.1: while a fault stands, a step answers it with the state unchanged; otherwise it is `o`. -/
def unlessFaulted (s : State) (o : Host.Outcome State Fault Refusal) : Host.Outcome State Fault Refusal :=
  match s.fault with
  | some r => .fault (faultOf r s)
  | none => o

/-! ### RESET (R125) -/

/-- R125: RESET sets every field of the state to its reset value and begins a new run. The parameters stay, the
command bytes not yet executed become the new run's (log entry 6). -/
def applyReset (s : State) : State := (State.resetWith s.cfg).setCommands s.commands

/-! ### The command stream (R38, R55, R60) -/

/-- What the head of the command stream is. -/
inductive Fetched where
  /-- No byte is pending. -/
  | idle
  /-- R61, R62: the bytes have no meaning. -/
  | bad (r : Refusal)
  /-- A command and the bytes after it. -/
  | command (i : Instr) (rest : List Byte)
  deriving DecidableEq, Repr

/-- R60: read the next command of the stream. -/
def fetch (s : State) : Fetched :=
  match decode s.commands with
  | .ok (i, rest) => .command i rest
  | .error .noCommand => .idle
  | .error (.illegalOpcode op) => .bad (.illegalOpcode op)
  | .error (.truncated op) => .bad (.truncated op)

/-- The command is executed: its bytes leave the stream, where it ended in a next state (log entry 7). -/
def consume (rest : List Byte) (o : Host.Outcome State Fault Refusal) : Host.Outcome State Fault Refusal :=
  match o with
  | .next s => .next (s.setCommands rest)
  | .fault f => .fault f
  | .refused r => .refused r

/-- One step of a block whose commands mean `meaning`: RESET comes first (R125), then a standing fault (R114.1), then
decoding (R114.2), then the command's own rule (R114.3). With no command pending the block does nothing
(log entry 5). -/
def stepBy (meaning : Instr → State → Host.Outcome State Fault Refusal) (s : State) :
    Host.Outcome State Fault Refusal :=
  match s.resetIn with
  | true => .next (applyReset s)
  | false =>
    match fetch s with
    | .idle => unlessFaulted s (.next s)
    | .bad r => unlessFaulted s (.refused r)
    | .command i rest => unlessFaulted s (consume rest (meaning i s))

/-- Put a command's bytes at the head of the stream of a block that neither is held by RESET nor has faulted, so
that the next step executes it (log entry 14). -/
def placeCommand (bs : List Byte) (s : State) : State :=
  { s with commands := bs ++ s.commands, fault := none, resetIn := false }

end Sys2Proof.Machine
end

