-- ==== Sys2Proof/Machine/Flags.lean ====
section
/-! DEFINITION. The block has no flags register (10_state.md R28): the one Boolean result it has, the checksum
comparison, is a response byte of CKMAT (D25) or is consumed by R94 in the same step. -/

namespace Sys2Proof.Machine

/-- R70, R94: both bytes equal, in order. -/
def cksumMatches (x : Cksum) (ra rb : Byte) : Bool := x.a == ra && x.b == rb

/-- R59, D25: a Boolean result as a response byte. -/
def boolByte (c : Bool) : Byte := if c then 0x01 else 0x00

end Sys2Proof.Machine
end

