-- ==== Sys2Proof/Machine/Checksum.lean ====
section
/-! DEFINITION. The checksum unit's commands (41_checksum.md R67 to R70). -/

namespace Sys2Proof.Machine

/-- R67 CKRST. -/
def execCkrst (s : State) : Host.Outcome State Fault Refusal :=
  emit [] (s.setCk ⟨0, 0⟩)

/-- R68 CKADD b. -/
def execCkadd (b : Byte) (s : State) : Host.Outcome State Fault Refusal :=
  emit [] (s.setCk (addByte s.ck b))

/-- R69 CKVAL. -/
def execCkval (s : State) : Host.Outcome State Fault Refusal :=
  emit [s.ck.a, s.ck.b] s

/-- R70 CKMAT ra, rb. -/
def execCkmat (ra rb : Byte) (s : State) : Host.Outcome State Fault Refusal :=
  emit [boolByte (cksumMatches s.ck ra rb)] s

end Sys2Proof.Machine
end

