-- ==== Sys2Proof/Machine/Codec.lean ====
section
/-! DEFINITION. The frame encoder (42_frame_codec.md R79, R80) and the wire frame (30_encoding.md R47 to R54). -/

namespace Sys2Proof.Machine

/-- R51: the bytes the checksum of a frame covers: class, id, lenLo, lenHi, then the payload. -/
def frameBody (id : MessageId) (payload : List Byte) : List Byte :=
  [id.cls, id.id, lo8 payload.length, hi8 payload.length] ++ payload

/-- R79: `encode(id, payload)`, for a payload of at most ENC_MAX bytes. Of a longer one the spec gives nothing: the
function is total, with the length modulo 65536 in the length bytes (log entry 19), and ENC does not reach it. -/
def encodeFrame (id : MessageId) (payload : List Byte) : List Byte :=
  let body := frameBody id payload
  let x := feed ⟨0, 0⟩ body
  [Config.sync1, Config.sync2] ++ body ++ [x.a, x.b]

/-- R12, R49: the wire form of a frame. -/
def frameWire (f : Frame) : List Byte := encodeFrame f.id f.payload

/-- R52: a byte sequence is a well-formed frame when it begins with the sync bytes, its length is `8 + len`, and its
last two bytes are the checksum of the bytes between. -/
def frameWellFormed : List Byte → Bool
  | y1 :: y2 :: c :: i :: lL :: lH :: rest =>
    let len := (len16 lL lH).toNat
    let x := feed ⟨0, 0⟩ (c :: i :: lL :: lH :: rest.take len)
    y1 == Config.sync1 && y2 == Config.sync2 && rest.length == len + 2 && rest.drop len == [x.a, x.b]
  | _ => false

/-- R80 ENC id, payload: no state field is read or written. R63: an abstract payload longer than ENC_MAX, which
format CE cannot express, is refused. -/
def execEnc (id : MessageId) (payload : List Byte) (s : State) : Host.Outcome State Fault Refusal :=
  if Config.encMax < payload.length then .refused (.payloadTooLong payload.length)
  else emit (encodeFrame id payload) s

end Sys2Proof.Machine
end

