-- ==== Sys2Proof/Machine/Control.lean ====
section
/-! DEFINITION. The stream parser's control commands (44_parser_control.md R100 to R105). -/

namespace Sys2Proof.Machine

/-- R100 PRST: only `P.state` is written (D19). -/
def execPrst (s : State) : Host.Outcome State Fault Refusal :=
  emit [] (s.setP (s.p.setState .init))

/-- R101 FILT id. -/
def execFilt (id : MessageId) (s : State) : Host.Outcome State Fault Refusal :=
  emit [] (s.setP (s.p.setFilter [id]))

/-- R102 FILTS: the distinct MessageIds replace the filter; more of them than FILTER_SLOTS are refused (R62,
log entry 8). -/
def execFilts (ids : List MessageId) (s : State) : Host.Outcome State Fault Refusal :=
  let f := filterOfList ids
  if s.cfg.filterSlots < f.length then .refused (.filterOverCapacity f.length)
  else emit [] (s.setP (s.p.setFilter f))

/-- R103 QCLR. -/
def execQclr (s : State) : Host.Outcome State Fault Refusal :=
  emit [] (s.setP (s.p.setFifo []))

/-- R104 QPOP: pops the head, whatever it is (conflict C8). -/
def execQpop (s : State) : Host.Outcome State Fault Refusal :=
  match s.p.fifo with
  | [] => emit [0x00] s
  | pkt :: rest => emit (0x01 :: packetBytes pkt) (s.setP (s.p.setFifo rest))

/-- R105 FRCNT: `W_FRC / 8` bytes, least significant first; reading does not clear. -/
def execFrcnt (s : State) : Host.Outcome State Fault Refusal :=
  emit (leBytes (s.cfg.wFrc / 8) s.p.frc) s

end Sys2Proof.Machine
end

