-- ==== Sys2Proof/Machine/Receive.lean ====
section
/-! DEFINITION. The stream parser's byte input RXB and its nine arms (43_parser_rx.md R83 to R95). -/

namespace Sys2Proof.Machine

/-- R84: `Init`. -/
def rxInit (b : Byte) (p : Parser) : Parser :=
  if b = Config.sync1 then { p with state := .sync1 } else { p with state := .init }

/-- R85: `Sync1`; SYNC2 clears the checksum, the length and the offset, which empties the payload buffer (R20, log entry 10); any
other byte is not re-examined. -/
def rxSync1 (b : Byte) (p : Parser) : Parser :=
  if b = Config.sync2 then { p with ck := ⟨0, 0⟩, len := 0, ofs := 0, state := .cls } else { p with state := .init }

/-- R86: `Class`; here and below `addByte p.ck b` is `AddP(b)`, the law of R68 on the parser's own accumulator. -/
def rxClass (b : Byte) (p : Parser) : Parser :=
  { p with cls := b, ck := addByte p.ck b, state := .id }

/-- R87: `Id`. -/
def rxId (b : Byte) (p : Parser) : Parser :=
  { p with id := b, ck := addByte p.ck b, state := .len1 }

/-- R88: `Len1`. -/
def rxLen1 (b : Byte) (p : Parser) : Parser :=
  { p with lenLo := b, ck := addByte p.ck b, state := .len2 }

/-- R89: the three ways on from `Len2`, by the length: no payload, abandoned (R90), payload. -/
def afterLength (len : U16) (p : Parser) : Parser :=
  if len.toNat = 0 then { p with state := .crc1 }
  else if Config.maxLen < len.toNat then { p with state := .init }
  else { p with ofs := 0, state := .data }

/-- R89, R90: `Len2`; a length over MAX_LEN is abandoned silently. -/
def rxLen2 (b : Byte) (p : Parser) : Parser :=
  afterLength (len16 p.lenLo b) { p with lenHi := b, ck := addByte p.ck b, len := len16 p.lenLo b }

/-- R91, R92: `Data`; every byte is payload. -/
def rxData (b : Byte) (p : Parser) : Parser :=
  { p with buf := bufWrite p.buf p.ofs.toNat b, ck := addByte p.ck b, ofs := p.ofs + 1#16,
           state := if p.ofs + 1#16 = p.len then .crc1 else .data }

/-- R93: `Crc1`; the received checksum bytes are not added to the accumulator. -/
def rxCrc1 (b : Byte) (p : Parser) : Parser :=
  { p with rxA := b, state := .crc2 }

/-- R94: the frame's packet. -/
def framePacket (p : Parser) : Packet := ⟨⟨p.cls, p.id⟩, p.payload⟩

/-- R94: end a frame: enqueue its packet, then back to `Init`. -/
def enqueueAndRestart (cfg : Config) (pkt : Packet) (p : Parser) : Except FaultReason Parser :=
  match enqueue cfg pkt p with
  | .ok q => .ok { q with state := .init }
  | .error r => .error r

/-- R94: `Crc2`. A good frame is counted whatever the filter says and queued where the filter in force at this step
admits it (R96); a bad one queues the sentinel, which the filter does not stop. -/
def rxCrc2 (cfg : Config) (b : Byte) (p : Parser) : Except FaultReason Parser :=
  let p := { p with rxB := b }
  if cksumMatches p.ck p.rxA p.rxB then
    let p := { p with frc := (p.frc + 1) % 2 ^ cfg.wFrc }
    if filterAdmits p.filter ⟨p.cls, p.id⟩ then enqueueAndRestart cfg (framePacket p) p
    else .ok { p with state := .init }
  else enqueueAndRestart cfg sentinel p

/-- R83: one transition of the parser. -/
def rxStep (cfg : Config) (b : Byte) (p : Parser) : Except FaultReason Parser :=
  match p.state with
  | .init => .ok (rxInit b p)
  | .sync1 => .ok (rxSync1 b p)
  | .cls => .ok (rxClass b p)
  | .id => .ok (rxId b p)
  | .len1 => .ok (rxLen1 b p)
  | .len2 => .ok (rxLen2 b p)
  | .data => .ok (rxData b p)
  | .crc1 => .ok (rxCrc1 b p)
  | .crc2 => rxCrc2 cfg b p

/-- R83 RXB b. -/
def execRxb (b : Byte) (s : State) : Host.Outcome State Fault Refusal :=
  match rxStep s.cfg b s.p with
  | .ok p => emit [] (s.setP p)
  | .error r => raiseFault r s

end Sys2Proof.Machine
end

