-- ==== Sys2Proof/Machine/Dispatch.lean ====
section
/-! DEFINITION. One arm for each command: the command's own rule (R114.3). -/

namespace Sys2Proof.Machine

def exec (i : Instr) (s : State) : Host.Outcome State Fault Refusal :=
  match i with
  | .ckrst => Sys2Proof.Machine.execCkrst s
  | .ckadd b => Sys2Proof.Machine.execCkadd b s
  | .ckval => Sys2Proof.Machine.execCkval s
  | .ckmat ra rb => Sys2Proof.Machine.execCkmat ra rb s
  | .enc id payload => Sys2Proof.Machine.execEnc id payload s
  | .rxb b => Sys2Proof.Machine.execRxb b s
  | .prst => Sys2Proof.Machine.execPrst s
  | .filt id => Sys2Proof.Machine.execFilt id s
  | .filts ids => Sys2Proof.Machine.execFilts ids s
  | .qclr => Sys2Proof.Machine.execQclr s
  | .qpop => Sys2Proof.Machine.execQpop s
  | .frcnt => Sys2Proof.Machine.execFrcnt s

end Sys2Proof.Machine
end

