-- ==== Sys2Proof/Machine/Step.lean ====
section
/-! DEFINITION. The step of the machine: RESET, then a standing fault, then decoding, then the command's own rule
(60_exceptions.md R114). -/

namespace Sys2Proof.Machine

/-- R9: the abstract step, one command the host issues: a standing fault comes before the command's own rule. -/
def issue (i : Instr) (s : State) : Host.Outcome State Fault Refusal := unlessFaulted s (exec i s)

/-- One step on the command stream `commands`. -/
def step (s : State) : Host.Outcome State Fault Refusal := stepBy exec s

/-- `s` with a table word's command at the head of its command stream (log entry 14). -/
def State.withFetchWord (s : State) (nbits w : Nat) : State := placeCommand (tableWordBytes nbits w) s

end Sys2Proof.Machine
end

