-- ==== Sys2Proof/Machine/MessageIdOps.lean ====
section
/-! DEFINITION. The MessageId value operations (42_frame_codec.md R73 to R78): pure functions on values, with no state
and no command; the host's test for a sentinel (R76, 44_parser_control.md R107); and the texts of 42_frame_codec.md R78 and 30_encoding.md R64 (log entry 16). -/

namespace Sys2Proof.Machine

/-- R73: `MessageId.new(class, id)`. -/
def midNew (c i : Byte) : MessageId := ⟨c, i⟩

/-- R74: `class((c, i)) = c`. -/
def midClass (m : MessageId) : Byte := m.cls

/-- R75: `id((c, i)) = i`. -/
def midId (m : MessageId) : Byte := m.id

/-- R76: equality by both fields. -/
def midEq (m n : MessageId) : Bool := m.cls == n.cls && m.id == n.id

/-- R76, R107: a packet is the sentinel exactly when its id equals SENTINEL_ID; its payload does not count, and a
packet that came on the wire with that id counts too (R135). -/
def isSentinel (pkt : Packet) : Bool := midEq pkt.id Config.sentinelId

/-- R77: the hash, a function of both fields and of nothing else; its values are free (log entry 13). -/
def midHash (m : MessageId) : Nat := Config.midHash m.cls m.id

/-- The upper-case hexadecimal digit of a value below 16 (D31). -/
def hexDigit (n : Nat) : Char := if n < 10 then Char.ofNat (48 + n) else Char.ofNat (55 + n)

/-- `0xHH` (R64, R78). -/
def hexByte (b : Byte) : List Char := ['0', 'x', hexDigit (b.toNat / 16), hexDigit (b.toNat % 16)]

/-- R78: the debug spelling `CID: 0xCC 0xII`. -/
def midDebug (m : MessageId) : List Char :=
  ['C', 'I', 'D', ':', ' '] ++ hexByte m.cls ++ [' '] ++ hexByte m.id

/-- Texts separated by a comma and a blank (R64). -/
def commaSeparated : List (List Char) → List Char
  | [] => []
  | [x] => x
  | x :: y :: xs => x ++ [',', ' '] ++ commaSeparated (y :: xs)

/-- R64: a MessageId is written `(0xCC,0xII)`. -/
def midText (m : MessageId) : List Char := ['('] ++ hexByte m.cls ++ [','] ++ hexByte m.id ++ [')']

/-- R64: a payload is written `[b0, b1, ...]`. -/
def payloadText (bs : List Byte) : List Char := ['['] ++ commaSeparated (bs.map hexByte) ++ [']']

/-- R64: a filter list is written between the braces, which are the characters 123 and 125. -/
def filterText (ids : List MessageId) : List Char :=
  [Char.ofNat 123] ++ commaSeparated (ids.map midText) ++ [Char.ofNat 125]

end Sys2Proof.Machine
end

