-- ==== Sys2Proof/Machine/Assembler.lean ====
section
/-! DEFINITION. The assembler text of a command (30_encoding.md R64) and the pseudo-commands (R65). -/

namespace Sys2Proof.Machine

/-- R64: a command's text is its mnemonic followed by its operands, separated by commas. -/
def asmText : Instr → List Char
  | .ckrst => ['C', 'K', 'R', 'S', 'T']
  | .ckadd b => ['C', 'K', 'A', 'D', 'D', ' '] ++ hexByte b
  | .ckval => ['C', 'K', 'V', 'A', 'L']
  | .ckmat ra rb => ['C', 'K', 'M', 'A', 'T', ' '] ++ commaSeparated [hexByte ra, hexByte rb]
  | .enc id payload => ['E', 'N', 'C', ' '] ++ commaSeparated [midText id, payloadText payload]
  | .rxb b => ['R', 'X', 'B', ' '] ++ hexByte b
  | .prst => ['P', 'R', 'S', 'T']
  | .filt id => ['F', 'I', 'L', 'T', ' '] ++ midText id
  | .filts ids => ['F', 'I', 'L', 'T', 'S', ' '] ++ filterText ids
  | .qclr => ['Q', 'C', 'L', 'R']
  | .qpop => ['Q', 'P', 'O', 'P']
  | .frcnt => ['F', 'R', 'C', 'N', 'T']

/-- R65: `CKFEED [b0, ..., bk]`. -/
def ckFeed (bs : List Byte) : List Instr := bs.map .ckadd

/-- R65: `RXFEED [b0, ..., bk]`. -/
def rxFeed (bs : List Byte) : List Instr := bs.map .rxb

/-- R65: `RXFRAME id, payload`, a host macro over the bytes of R80. DESIGN CHOICE (log entry 19): for a payload of more
than ENC_MAX bytes, for which R80 gives no bytes, it still expands, to `encodeFrame` of it, whose length bytes are the
length modulo 65536. -/
def rxFrame (id : MessageId) (payload : List Byte) : List Instr := rxFeed (encodeFrame id payload)

/-- R65: `CKFRAME id, payload`. -/
def ckFrame (id : MessageId) (payload : List Byte) : List Instr := .ckrst :: ckFeed (frameBody id payload)

end Sys2Proof.Machine
end

