-- ==== Sys2Proof/Safety.lean ====
section
/-! DEFINITION. The terms claims are stated in: runs of commands and good runs (60_exceptions.md R124), the invariants of
10_state.md R30, the sums of 30_encoding.md R51, the write and read matrix of 44_parser_control.md R106, what a claim
about the parser alone compares (43_parser_rx.md R97), and the hidden state of R29. -/

namespace Sys2Proof.Machine

/-! ### Runs (R124) -/

/-- A command ended in a next state with the response `r`, which leaves `s`. -/
abbrev answered (s : State) (r : List Byte) : Host.Outcome State Fault Refusal :=
  .next { s with responses := s.responses ++ [r] }

/-- R124: a sequence of commands, each issued to the state the one before left, up to the first fault or refusal. -/
def runCommands : List Instr → State → Host.Outcome State Fault Refusal
  | [], s => .next s
  | i :: is, s =>
    match issue i s with
    | .next t => runCommands is t
    | .fault f => .fault f
    | .refused r => .refused r

/-- R124: a run from reset is good when no step refused and no fault is recorded at its end. -/
def GoodRun (cfg : Config) (is : List Instr) (t : State) : Prop :=
  runCommands is (State.resetWith cfg) = .next t ∧ t.fault = none

/-- R124: what a run shows, its responses and its final state. -/
def observation (t : State) : List (List Byte) × State := (t.responses, t)

/-- Apply `f` to the state an outcome leaves. -/
def mapOutcome (f : State → State) : Host.Outcome State Fault Refusal → Host.Outcome State Fault Refusal
  | .next t => .next (f t)
  | .fault (.fifoOverflow t) => .fault (.fifoOverflow (f t))
  | .refused r => .refused r

/-! ### The sums of the checksum (R51) -/

/-- `sum d[k]`. -/
def byteSum : List Byte → Nat
  | [] => 0
  | d :: ds => d.toNat + byteSum ds

/-- `sum (n - k) * d[k]`. -/
def weightedSum : List Byte → Nat
  | [] => 0
  | d :: ds => (ds.length + 1) * d.toNat + weightedSum ds

/-! ### The invariants (R30) -/

/-- The frame bytes the parser consumed since it entered `Class`, the checksum bytes left out (R30). -/
def Parser.consumed (p : Parser) : List Byte :=
  match p.state with
  | .init => []
  | .sync1 => []
  | .cls => []
  | .id => [p.cls]
  | .len1 => [p.cls, p.id]
  | .len2 => [p.cls, p.id, p.lenLo]
  | .data => [p.cls, p.id, p.lenLo, p.lenHi] ++ p.payload
  | .crc1 => [p.cls, p.id, p.lenLo, p.lenHi] ++ p.payload
  | .crc2 => [p.cls, p.id, p.lenLo, p.lenHi] ++ p.payload

/-- R30, with the bounds of R22 to R24 and the canonical forms of the model. -/
structure State.Inv (s : State) : Prop where
  /-- R6: the parameters are legal. -/
  cfg : s.cfg.wf = true
  /-- R30: in `Data`, `1 <= len <= MAX_LEN` and `ofs < len`. -/
  data : s.p.state = .data → 1 ≤ s.p.len.toNat ∧ s.p.len.toNat ≤ Config.maxLen ∧ s.p.ofs.toNat < s.p.len.toNat
  /-- R30: in `Crc1` and `Crc2`, `ofs = len <= MAX_LEN`. -/
  crc : s.p.state = .crc1 ∨ s.p.state = .crc2 → s.p.ofs = s.p.len ∧ s.p.len.toNat ≤ Config.maxLen
  /-- R30: in the header states the offset is 0. -/
  header : s.p.state = .cls ∨ s.p.state = .id ∨ s.p.state = .len1 ∨ s.p.state = .len2 → s.p.ofs = 0
  /-- R30: every queued payload fits the buffer. -/
  packets : ∀ pkt ∈ s.p.fifo, pkt.payload.length ≤ Config.maxLen
  /-- R30: from `Id` on the accumulator is the checksum of the bytes consumed; in `Class` it is clear. -/
  cksum : s.p.state ≠ .init → s.p.state ≠ .sync1 → s.p.ck = feed ⟨0, 0⟩ s.p.consumed
  /-- The length is the one the latches give, once it is known (R50). -/
  length : s.p.state = .data ∨ s.p.state = .crc1 ∨ s.p.state = .crc2 → s.p.len = len16 s.p.lenLo s.p.lenHi
  /-- The payload buffer is in its canonical form and within MAX_LEN (R20, R41). -/
  buffer : s.p.buf.wf
  /-- R22: the filter is a set in its canonical form, of at most FILTER_SLOTS members. -/
  filter : s.p.filter.Pairwise (fun m n => midKey m < midKey n) ∧ s.p.filter.length ≤ s.cfg.filterSlots
  /-- R23: the FIFO holds at most FIFO_DEPTH packets. -/
  fifo : ∀ d, s.cfg.fifoDepth = some d → s.p.fifo.length ≤ d
  /-- R24: the counter has W_FRC bits. -/
  counter : s.p.frc < 2 ^ s.cfg.wFrc

/-- Nothing outside the parser's frame, FIFO and counter differs, the responses apart: what RXB leaves alone (R106). -/
def SameOutsideFrame (s t : State) : Prop :=
  t.cfg = s.cfg ∧ t.ck = s.ck ∧ t.fault = s.fault ∧ t.commands = s.commands ∧ t.resetIn = s.resetIn ∧
    t.p.filter = s.p.filter

/-! ### The matrix of R106 -/

/-- The columns of R106. -/
inductive Column where
  /-- `CK` -/
  | ck
  /-- `P.state` -/
  | state
  /-- `P.ck`, the latches, `P.ofs`, `P.buf` -/
  | frame
  /-- `P.filter` -/
  | filter
  /-- `P.fifo` -/
  | fifo
  /-- `P.frc` -/
  | frc
  deriving DecidableEq, Repr

/-- R106: the columns a command may write. -/
def writes : Instr → List Column
  | .ckrst => [.ck]
  | .ckadd _ => [.ck]
  | .ckval => []
  | .ckmat _ _ => []
  | .enc _ _ => []
  | .rxb _ => [.state, .frame, .fifo, .frc]
  | .prst => [.state]
  | .filt _ => [.filter]
  | .filts _ => [.filter]
  | .qclr => [.fifo]
  | .qpop => [.fifo]
  | .frcnt => []

/-- R106: the columns a command reads. RXB's push and increment read the FIFO and the counter (log entry 18). -/
def reads : Instr → List Column
  | .ckrst => []
  | .ckadd _ => [.ck]
  | .ckval => [.ck]
  | .ckmat _ _ => [.ck]
  | .enc _ _ => []
  | .rxb _ => [.state, .frame, .filter, .fifo, .frc]
  | .prst => []
  | .filt _ => []
  | .filts _ => []
  | .qclr => []
  | .qpop => [.fifo]
  | .frcnt => [.frc]

/-- The column `c` of `s` as `src` has it, everything else as `s` has it. -/
def copyColumn (c : Column) (src s : State) : State :=
  match c with
  | .ck => { s with ck := src.ck }
  | .state => { s with p := { s.p with state := src.p.state } }
  | .frame =>
    { s with p := { src.p with state := s.p.state, filter := s.p.filter, fifo := s.p.fifo, frc := s.p.frc } }
  | .filter => { s with p := { s.p with filter := src.p.filter } }
  | .fifo => { s with p := { s.p with fifo := src.p.fifo } }
  | .frc => { s with p := { s.p with frc := src.p.frc } }

/-! ### The parser's own commands (R97) -/

/-- R57: the commands of the unit PSR. -/
def isPsrCommand : Instr → Bool
  | .ckrst => false
  | .ckadd _ => false
  | .ckval => false
  | .ckmat _ _ => false
  | .enc _ _ => false
  | .rxb _ => true
  | .prst => true
  | .filt _ => true
  | .filts _ => true
  | .qclr => true
  | .qpop => true
  | .frcnt => true

/-- Two outcomes of one kind that leave the same parser, or refuse for the same reason. -/
def SameParser (o o' : Host.Outcome State Fault Refusal) : Prop :=
  match o, o' with
  | .next s, .next t => s.p = t.p
  | .fault (.fifoOverflow s), .fault (.fifoOverflow t) => s.p = t.p
  | .refused r, .refused r' => r = r'
  | _, _ => False

/-- One read of the host (R97): it hands over the bytes as RXB commands, behind what is still pending, and the block takes
one step for each. -/
def handOver (bs : List Byte) (s : State) : Host.Outcome State Fault Refusal :=
  Host.Core.run core bs.length { s with commands := s.commands ++ encodeAll (rxFeed bs) }

/-! ### Hidden state (R29) -/

/-- Two parsers that agree on everything a later byte or command can still show: the fields a frame has not written yet,
and the buffer's bytes at and beyond `P.ofs`, may differ (R20, U8, U9). -/
structure Parser.Alike (p q : Parser) : Prop where
  state : p.state = q.state
  filter : p.filter = q.filter
  fifo : p.fifo = q.fifo
  frc : p.frc = q.frc
  cksum : p.state ≠ .init → p.state ≠ .sync1 → p.ck = q.ck ∧ p.ofs = q.ofs
  cls : p.state ∈ [ParserState.id, .len1, .len2, .data, .crc1, .crc2] → p.cls = q.cls
  id : p.state ∈ [ParserState.len1, .len2, .data, .crc1, .crc2] → p.id = q.id
  lenLo : p.state = .len2 → p.lenLo = q.lenLo
  len : p.state = .data → p.len = q.len
  payload : p.state ∈ [ParserState.data, .crc1, .crc2] → p.payload = q.payload
  rxA : p.state = .crc2 → p.rxA = q.rxA

/-- Two states that differ in hidden, dead fields of the parser only. -/
structure State.Alike (s t : State) : Prop where
  cfg : s.cfg = t.cfg
  ck : s.ck = t.ck
  p : s.p.Alike t.p
  fault : s.fault = t.fault
  commands : s.commands = t.commands
  responses : s.responses = t.responses
  resetIn : s.resetIn = t.resetIn

/-- Two outcomes of one kind, with states that are alike. -/
def OutcomesAlike (o o' : Host.Outcome State Fault Refusal) : Prop :=
  match o, o' with
  | .next s, .next t => s.Alike t
  | .fault (.fifoOverflow s), .fault (.fifoOverflow t) => s.Alike t
  | .refused r, .refused r' => r = r'
  | _, _ => False

end Sys2Proof.Machine
end

