-- ==== Sys2Proof/Certificates/Slice0/Obligations.lean ====
section
/-! DEFINITION. The statements for the provers. Each docstring names the rules of spec/ it formalises. Unless a statement
says otherwise it is about every state, every operand and every legal or illegal set of parameters. -/

open Sys2Proof Sys2Proof.Machine

/-! ### The checksum unit -/

/-- R67: CKRST is the byte 01; it clears both bytes of `CK`, responds with nothing and changes nothing else; doing it
twice leaves what doing it once does. -/
def Obligations.CkrstZeroesAccumulator : Prop :=
  (∀ rest, decode (0x01 :: rest) = .ok (.ckrst, rest)) ∧
  (∀ s, exec .ckrst s = answered { s with ck := ⟨0, 0⟩ } []) ∧
  (∀ s, ∃ t u, exec .ckrst s = .next t ∧ exec .ckrst t = .next u ∧ u.ck = t.ck ∧ u.p = s.p)

/-- R68: CKADD b is the bytes 02 b; `a <- (a + b) mod 256`, then `b <- (b + a) mod 256` with the new `a`; nothing else
changes and the response is empty. -/
def Obligations.CkaddAddsModulo256 : Prop :=
  ∀ (b : Byte) (s : State),
    (∀ rest, decode (0x02 :: b :: rest) = .ok (.ckadd b, rest)) ∧
    ∃ x : Cksum, x.a.toNat = (s.ck.a.toNat + b.toNat) % 256 ∧ x.b.toNat = (s.ck.b.toNat + x.a.toNat) % 256 ∧
      exec (.ckadd b) s = answered { s with ck := x } []

/-- R69: CKVAL is the byte 03; it responds with `[CK.a, CK.b]` and changes nothing. -/
def Obligations.CkvalReadsAccumulator : Prop :=
  (∀ rest, decode (0x03 :: rest) = .ok (.ckval, rest)) ∧
  (∀ s, exec .ckval s = answered s [s.ck.a, s.ck.b]) ∧
  (∀ s : State, s.ck = ⟨0, 0⟩ → exec .ckval s = answered s [0x00, 0x00])

/-- R70: CKMAT ra, rb is the bytes 04 ra rb; it responds with 01 where both bytes match in order and with 00 otherwise,
and changes nothing; with the pair swapped it responds 00 unless the two bytes are equal or the swapped pair matches. -/
def Obligations.CkmatComparesBothBytes : Prop :=
  ∀ (ra rb : Byte) (s : State),
    (∀ rest, decode (0x04 :: ra :: rb :: rest) = .ok (.ckmat ra rb, rest)) ∧
    exec (.ckmat ra rb) s = answered s [if s.ck.a = ra ∧ s.ck.b = rb then 0x01 else 0x00] ∧
    (s.ck = ⟨ra, rb⟩ → ra ≠ rb → exec (.ckmat rb ra) s = answered s [0x00])

/-- R71: feeding two chunks gives what feeding their concatenation does, as a law of `feed` and as a law of CKADD
commands issued to the machine, which leave the parser alone. -/
def Obligations.FeedingInTwoChunksIsFeedingOnce : Prop :=
  (∀ (x : Cksum) (d e : List Byte), feed (feed x d) e = feed x (d ++ e)) ∧
  (∀ (s : State) (d e : List Byte), s.fault = none →
    ∃ t u, runCommands (ckFeed d) s = .next t ∧ runCommands (ckFeed e) t = .next u ∧
      runCommands (ckFeed (d ++ e)) s = .next u ∧ u.ck = feed s.ck (d ++ e) ∧ u.p = s.p)

/-- R51: the checksum of a frame is the accumulator started at (0, 0) and fed class, id, lenLo, lenHi and the payload;
its closed form is the byte sum and the weighted byte sum, modulo 256. -/
def Obligations.FrameChecksumClosedForm : Prop :=
  (∀ d : List Byte, (feed ⟨0, 0⟩ d).a.toNat = byteSum d % 256 ∧ (feed ⟨0, 0⟩ d).b.toNat = weightedSum d % 256) ∧
  (∀ (id : MessageId) (payload : List Byte), payload.length ≤ 65535 →
    ∃ (x : Cksum) (head : List Byte), encodeFrame id payload = 0xB5 :: 0x62 :: (head ++ payload ++ [x.a, x.b]) ∧
      head = [id.cls, id.id, BitVec.ofNat 8 payload.length, BitVec.ofNat 8 (payload.length / 256)] ∧
      x.a.toNat = byteSum (head ++ payload) % 256 ∧ x.b.toNat = weightedSum (head ++ payload) % 256)

/-- R72: what appended zero bytes and a swap of two bytes do to the checksum, when two sequences of one length have the
same checksum, and a change it does not see. -/
def Obligations.ChecksumArithmetic : Prop :=
  (∀ d : List Byte, (feed ⟨0, 0⟩ d).a.toNat = byteSum d % 256 ∧ (feed ⟨0, 0⟩ d).b.toNat = weightedSum d % 256) ∧
  (∀ (x : Cksum) (m : Nat), (feed x (List.replicate m 0)).a = x.a ∧
    (feed x (List.replicate m 0)).b.toNat = (x.b.toNat + m * x.a.toNat) % 256) ∧
  (∀ d e : List Byte, d.length = e.length → (feed ⟨0, 0⟩ d = feed ⟨0, 0⟩ e ↔
    byteSum d % 256 = byteSum e % 256 ∧ weightedSum d % 256 = weightedSum e % 256)) ∧
  (∀ (d : List Byte) (i j : Nat) (hi : i < d.length) (hj : j < d.length),
    let e := (d.set i d[j]).set j d[i]
    let change : Int := ((j : Int) - i) * ((d[j].toNat : Int) - d[i].toNat)
    (feed ⟨0, 0⟩ e).a = (feed ⟨0, 0⟩ d).a ∧
    (((feed ⟨0, 0⟩ e).b.toNat : Int) - (feed ⟨0, 0⟩ d).b.toNat) % 256 = change % 256 ∧
    (feed ⟨0, 0⟩ e = feed ⟨0, 0⟩ d ↔ change % 256 = 0)) ∧
  feed ⟨0, 0⟩ [0x80, 0x11, 0x00] = feed ⟨0, 0⟩ [0x00, 0x11, 0x80]

/-! ### The encoder and the wire frame -/

/-- R79, R80, R63: ENC is the bytes 10 c i lenLo lenHi and the payload; for a payload of at most 65535 bytes it responds
with the wire frame and changes nothing; a longer one, which no bytes encode, is refused with its length. -/
def Obligations.EncAnswersTheWireFrame : Prop :=
  ∀ (id : MessageId) (payload : List Byte) (s : State),
    (payload.length ≤ 65535 →
      (∀ rest, decode (0x10 :: id.cls :: id.id :: BitVec.ofNat 8 payload.length ::
          BitVec.ofNat 8 (payload.length / 256) :: (payload ++ rest)) = .ok (.enc id payload, rest)) ∧
      ∃ x : Cksum,
        x = feed ⟨0, 0⟩ ([id.cls, id.id, BitVec.ofNat 8 payload.length, BitVec.ofNat 8 (payload.length / 256)] ++
          payload) ∧
        exec (.enc id payload) s = answered s ([0xB5, 0x62, id.cls, id.id, BitVec.ofNat 8 payload.length,
          BitVec.ofNat 8 (payload.length / 256)] ++ payload ++ [x.a, x.b])) ∧
    (65535 < payload.length → exec (.enc id payload) s = .refused (.payloadTooLong payload.length))

/-- R81: the two encoder vectors. -/
def Obligations.EncoderVectorsHold : Prop :=
  encodeFrame ⟨0x05, 0x01⟩ [1, 2] = [0xB5, 0x62, 0x05, 0x01, 0x02, 0x00, 1, 2, 11, 47] ∧
  encodeFrame ⟨0x0A, 0x04⟩ [] = [0xB5, 0x62, 0x0A, 0x04, 0x00, 0x00, 0x0E, 0x34]

/-- R52, R49: a byte sequence is a well-formed frame exactly when it is the encoding of a MessageId and a payload of at
most 65535 bytes; the frame has `8 + len` bytes. -/
def Obligations.WellFormedFramesAreTheEncodings : Prop :=
  ∀ bs : List Byte, frameWellFormed bs = true ↔
    ∃ (id : MessageId) (payload : List Byte),
      payload.length ≤ 65535 ∧ bs = encodeFrame id payload ∧ bs.length = 8 + payload.length

/-- R54: a frame is self-delimiting: what begins with one frame begins with no other. -/
def Obligations.FramesAreSelfDelimiting : Prop :=
  ∀ (id id' : MessageId) (payload payload' rest rest' : List Byte),
    payload.length ≤ 65535 → payload'.length ≤ 65535 →
    encodeFrame id payload ++ rest = encodeFrame id' payload' ++ rest' → id = id' ∧ payload = payload' ∧ rest = rest'

/-! ### The parser, one byte -/

/-- R84: in `Init`, B5 leads to `Sync1` and any other byte stays; nothing else changes. -/
def Obligations.RxbInInitLooksForSync : Prop :=
  ∀ (b : Byte) (s : State), s.p.state = .init →
    exec (.rxb b) s = answered { s with p := { s.p with state := if b = 0xB5 then .sync1 else .init } } []

/-- R85: in `Sync1`, 62 clears the checksum, the length and the offset and leads to `Class`; any other byte, B5
included, leads to `Init`. -/
def Obligations.RxbInSync1StartsAFrame : Prop :=
  ∀ (b : Byte) (s : State), s.p.state = .sync1 →
    exec (.rxb b) s =
      answered { s with p := if b = 0x62 then { s.p with ck := ⟨0, 0⟩, len := 0, ofs := 0, state := .cls }
                             else { s.p with state := .init } } []

/-- R86, R87, R88: in `Class`, `Id` and `Len1` the byte is latched, added to the parser's accumulator, and the next
header state follows. -/
def Obligations.RxbLatchesTheHeader : Prop :=
  ∀ (b : Byte) (s : State) (x : Cksum),
    x.a.toNat = (s.p.ck.a.toNat + b.toNat) % 256 → x.b.toNat = (s.p.ck.b.toNat + x.a.toNat) % 256 →
    (s.p.state = .cls → exec (.rxb b) s = answered { s with p := { s.p with cls := b, ck := x, state := .id } } []) ∧
    (s.p.state = .id → exec (.rxb b) s = answered { s with p := { s.p with id := b, ck := x, state := .len1 } } []) ∧
    (s.p.state = .len1 →
      exec (.rxb b) s = answered { s with p := { s.p with lenLo := b, ck := x, state := .len2 } } [])

/-- R89, R90: in `Len2` the byte is latched and added, the length becomes `lenLo + 256 * lenHi`, and the next state is
`Crc1` for length 0, `Init` for a length over 1000 with nothing queued and nothing counted, `Data` with offset 0
otherwise. -/
def Obligations.RxbInLen2ChecksTheLength : Prop :=
  ∀ (b : Byte) (s : State) (x : Cksum) (len : U16), s.p.state = .len2 →
    x.a.toNat = (s.p.ck.a.toNat + b.toNat) % 256 → x.b.toNat = (s.p.ck.b.toNat + x.a.toNat) % 256 →
    len.toNat = s.p.lenLo.toNat + 256 * b.toNat →
    exec (.rxb b) s = answered { s with p :=
      if len.toNat = 0 then { s.p with lenHi := b, ck := x, len := len, state := .crc1 }
      else if 1000 < len.toNat then { s.p with lenHi := b, ck := x, len := len, state := .init }
      else { s.p with lenHi := b, ck := x, len := len, ofs := 0, state := .data } } []

/-- R91, R92: in `Data` every byte is written at the offset, which reads it back, added, and the offset rises by 1; the
state is `Crc1` when the offset reaches the length and `Data` otherwise. Every other byte of the buffer reads as before.
The premises on the offset are R30's. -/
def Obligations.RxbInDataAppendsToThePayload : Prop :=
  ∀ (b : Byte) (s : State) (x : Cksum), s.p.state = .data →
    s.p.ofs.toNat < s.p.len.toNat → s.p.len.toNat ≤ 1000 →
    x.a.toNat = (s.p.ck.a.toNat + b.toNat) % 256 → x.b.toNat = (s.p.ck.b.toNat + x.a.toNat) % 256 →
    ∃ (buf : Memory) (ofs : U16),
      ofs.toNat = s.p.ofs.toNat + 1 ∧
      (∀ k : Nat, buf.read k = if k = s.p.ofs.toNat then b else s.p.buf.read k) ∧
      exec (.rxb b) s = answered { s with p := { s.p with
        buf := buf, ck := x, ofs := ofs, state := if ofs = s.p.len then .crc1 else .data } } []

/-- R93: in `Crc1` the byte becomes the received ckA and is not added to the accumulator. -/
def Obligations.RxbInCrc1LatchesCka : Prop :=
  ∀ (b : Byte) (s : State), s.p.state = .crc1 →
    exec (.rxb b) s = answered { s with p := { s.p with rxA := b, state := .crc2 } } []

/-- R94, R95, R96: in `Crc2` a frame whose checksum matches is counted, and its packet, the first `ofs` bytes of the
buffer, is queued where the filter in force is empty or has its MessageId and dropped otherwise; a mismatch queues the
sentinel whatever the filter holds; where the packet would go into a full FIFO of finite depth, the step faults and
leaves the state as it was but for the fault (R116). -/
def Obligations.RxbInCrc2EndsTheFrame : Prop :=
  ∀ (b : Byte) (s : State), s.p.state = .crc2 →
    let good := s.p.ck.a = s.p.rxA ∧ s.p.ck.b = b
    let admitted := s.p.filter = [] ∨ (⟨s.p.cls, s.p.id⟩ : MessageId) ∈ s.p.filter
    let full := s.cfg.fifoDepth = some s.p.fifo.length
    let count := (s.p.frc + 1) % 2 ^ s.cfg.wFrc
    (good → admitted → ¬full → exec (.rxb b) s = answered { s with p := { s.p with
      rxB := b, frc := count, state := .init,
      fifo := s.p.fifo ++ [⟨⟨s.p.cls, s.p.id⟩, (List.range s.p.ofs.toNat).map s.p.buf.read⟩] } } []) ∧
    (good → ¬admitted → exec (.rxb b) s = answered { s with p := { s.p with
      rxB := b, frc := count, state := .init } } []) ∧
    (¬good → ¬full → exec (.rxb b) s = answered { s with p := { s.p with
      rxB := b, state := .init, fifo := s.p.fifo ++ [⟨⟨0x00, 0x02⟩, []⟩] } } []) ∧
    (full → (good → admitted) →
      exec (.rxb b) s = .fault (.fifoOverflow { s with fault := some .fifoOverflow }))

/-- R83: RXB b is the bytes 20 b. R98: RXB answers a next state in every parser state for every byte, but where it would
queue into a full FIFO; its response is empty and the checksum unit, the filter and the parameters are untouched. -/
def Obligations.RxbCompletesInEveryState : Prop :=
  ∀ (b : Byte) (s : State),
    (∀ rest, decode (0x20 :: b :: rest) = .ok (.rxb b, rest)) ∧
    ((s.p.state = .crc2 → s.cfg.fifoDepth ≠ some s.p.fifo.length) →
      ∃ t, exec (.rxb b) s = .next t ∧ t.responses = s.responses ++ [[]] ∧ SameOutsideFrame s t)

/-! ### The parser, many bytes -/

/-- R97. The parser's effect depends on the bytes fed and the parser's own commands between them alone, not on how the
bytes are split into reads:
1. feeding a byte sequence in two parts, with no command between, is feeding it at once, and a fault in the first part is
   the outcome of the whole;
2. RXFEED applies R83's transition to the parser byte by byte and writes nothing else but its empty responses; it faults
   where a transition does;
3. from two states that agree in the parameters and in `P`, no fault recorded, a sequence of well-formed commands and the
   same sequence without the commands of the other two units leave the same parser, or fault with the same one, or are
   refused for the same reason, whatever `CK`, the pending commands and the responses hold;
4. on the command stream, bytes the host hands over in two reads leave what they leave in one read; where the first read
   faults, the bytes of the second only stand behind those still pending. That the pending bytes are held in State
   (log entry 1), and that those of a command that faults stay there (log entry 7), are the model's choices. -/
def Obligations.ParserStreamingEquivalence : Prop :=
  (∀ (x y : List Byte) (s : State),
    runCommands (rxFeed (x ++ y)) s =
      match runCommands (rxFeed x) s with
      | .next t => runCommands (rxFeed y) t
      | .fault f => .fault f
      | .refused r => .refused r) ∧
  (∀ (bs : List Byte) (s : State), s.fault = none →
    match bs.foldlM (fun p b => rxStep s.cfg b p) s.p with
    | .ok q => runCommands (rxFeed bs) s = .next { s with p := q, responses := s.responses ++ bs.map fun _ => [] }
    | .error _ => ∃ u, runCommands (rxFeed bs) s = .fault (.fifoOverflow u)) ∧
  (∀ (is : List Instr) (s t : State), (∀ i ∈ is, i.wf = true) → s.cfg = t.cfg → s.p = t.p → s.fault = none →
    t.fault = none → SameParser (runCommands is s) (runCommands (is.filter isPsrCommand) t)) ∧
  (∀ (x y : List Byte) (s : State), s.resetIn = false → s.fault = none → s.commands = [] →
    handOver (x ++ y) s =
      match handOver x s with
      | .next t => handOver y t
      | .fault (.fifoOverflow t) => .fault (.fifoOverflow { t with commands := t.commands ++ encodeAll (rxFeed y) })
      | .refused r => .refused r)

/-- R98: whatever bytes arrive, the parser is in `Init` again after at most 1007 of them, from `Class` after at most
1006, if the FIFO has room for one packet. From `Init` it is there already. -/
def Obligations.ParserResynchronises : Prop :=
  ∀ (s : State) (bs : List Byte), s.Inv → s.fault = none → s.cfg.fifoDepth ≠ some s.p.fifo.length →
    s.p.state ≠ .init → bs.length = (if s.p.state = .cls then 1006 else 1007) →
    ∃ k t, k ≤ bs.length ∧ runCommands (rxFeed (bs.take k)) s = .next t ∧ t.p.state = .init

/-- R82: the round trip. From `Init`, feeding the encoding of a MessageId and a payload of at most 1000 bytes counts one
frame, leaves the parser in `Init`, and queues exactly that packet where the filter is empty or has the MessageId (the
FIFO having room for it, R95), and nothing otherwise. -/
def Obligations.EncodedFramesParseBack : Prop :=
  ∀ (s : State) (id : MessageId) (payload : List Byte), s.p.state = .init → s.fault = none → payload.length ≤ 1000 →
    ((s.p.filter = [] ∨ id ∈ s.p.filter) → s.cfg.fifoDepth ≠ some s.p.fifo.length →
      ∃ t, runCommands (rxFrame id payload) s = .next t ∧ t.p.state = .init ∧
        t.p.fifo = s.p.fifo ++ [⟨id, payload⟩] ∧ t.p.frc = (s.p.frc + 1) % 2 ^ s.cfg.wFrc ∧ SameOutsideFrame s t) ∧
    (¬(s.p.filter = [] ∨ id ∈ s.p.filter) →
      ∃ t, runCommands (rxFrame id payload) s = .next t ∧ t.p.state = .init ∧ t.p.fifo = s.p.fifo ∧
        t.p.frc = (s.p.frc + 1) % 2 ^ s.cfg.wFrc ∧ SameOutsideFrame s t)

/-- R99: the four outcomes of a candidate frame fed to a parser in `Init`: an oversize length is abandoned after the six
header bytes, the rest being scanned from `Init`; a good admitted frame is queued and counted; a good rejected one is
counted; a bad one queues the sentinel. The premises on the FIFO are R95's. -/
def Obligations.CandidateFrameOutcomes : Prop :=
  ∀ (s : State) (c i lL lH xA xB : Byte) (payload : List Byte), s.p.state = .init → s.fault = none →
    let header : List Byte := [0xB5, 0x62, c, i, lL, lH]
    let len := lL.toNat + 256 * lH.toNat
    let ck := feed ⟨0, 0⟩ ([c, i, lL, lH] ++ payload)
    let admitted := s.p.filter = [] ∨ (⟨c, i⟩ : MessageId) ∈ s.p.filter
    let room := s.cfg.fifoDepth ≠ some s.p.fifo.length
    let whole := rxFeed (header ++ payload ++ [xA, xB])
    (1000 < len → ∃ t, runCommands (rxFeed header) s = .next t ∧ t.p.state = .init ∧ t.p.fifo = s.p.fifo ∧
      t.p.frc = s.p.frc ∧ SameOutsideFrame s t ∧
      ∀ rest, runCommands (rxFeed (header ++ rest)) s = runCommands (rxFeed rest) t) ∧
    (len ≤ 1000 → payload.length = len →
      (ck = ⟨xA, xB⟩ → admitted → room → ∃ t, runCommands whole s = .next t ∧ t.p.state = .init ∧
        t.p.fifo = s.p.fifo ++ [⟨⟨c, i⟩, payload⟩] ∧ t.p.frc = (s.p.frc + 1) % 2 ^ s.cfg.wFrc ∧
        SameOutsideFrame s t) ∧
      (ck = ⟨xA, xB⟩ → ¬admitted → ∃ t, runCommands whole s = .next t ∧ t.p.state = .init ∧ t.p.fifo = s.p.fifo ∧
        t.p.frc = (s.p.frc + 1) % 2 ^ s.cfg.wFrc ∧ SameOutsideFrame s t) ∧
      (ck ≠ ⟨xA, xB⟩ → room → ∃ t, runCommands whole s = .next t ∧ t.p.state = .init ∧
        t.p.fifo = s.p.fifo ++ [⟨⟨0x00, 0x02⟩, []⟩] ∧ t.p.frc = s.p.frc ∧ SameOutsideFrame s t))

/-- R42, R108: with an unbounded FIFO, a sequence of good frames fed from `Init` queues exactly those the filter admits,
in their order; the counter rises by their number; popping then returns them in that order. -/
def Obligations.FilterKeepsTheOrderOfFrames : Prop :=
  ∀ (s : State) (frames : List Frame), s.p.state = .init → s.fault = none → s.cfg.fifoDepth = none →
    s.p.fifo = [] → s.p.frc < 2 ^ s.cfg.wFrc → (∀ f ∈ frames, f.payload.length ≤ 1000) →
    let admitted := frames.filter fun f => s.p.filter.isEmpty || s.p.filter.contains f.id
    ∃ t u, runCommands (rxFeed (frames.map frameWire).flatten) s = .next t ∧
      t.p.state = .init ∧ t.p.fifo = admitted.map (fun f => ⟨f.id, f.payload⟩) ∧
      t.p.frc = (s.p.frc + frames.length) % 2 ^ s.cfg.wFrc ∧
      runCommands (List.replicate admitted.length .qpop) t = .next u ∧ u.p.fifo = [] ∧
      u.responses = t.responses ++ admitted.map (fun f =>
        [0x01, f.id.cls, f.id.id, BitVec.ofNat 8 f.payload.length, BitVec.ofNat 8 (f.payload.length / 256)] ++
          f.payload)

/-- R130: a B5 directly before a frame's sync bytes hides the frame: after B5 B5 62 the parser is in `Init` and nothing
has changed. -/
def Obligations.DoubledSyncByteHidesAFrame : Prop :=
  ∀ (s : State) (rest : List Byte), s.p.state = .init → s.fault = none →
    runCommands (rxFeed (0xB5 :: 0xB5 :: 0x62 :: rest)) s =
      runCommands (rxFeed rest) { s with responses := s.responses ++ [[], [], []] }

/-- R133: the frame ENC builds for a payload of 1001 to 65535 bytes is dropped: its header leaves the parser in `Init`,
with no packet, no sentinel and no count, and the rest is scanned from `Init`. -/
def Obligations.OversizeEncodedFramesAreDropped : Prop :=
  ∀ (s : State) (id : MessageId) (payload : List Byte), s.p.state = .init → s.fault = none →
    1000 < payload.length → payload.length ≤ 65535 →
    ∃ t x, runCommands (rxFeed ((encodeFrame id payload).take 6)) s = .next t ∧ t.p.state = .init ∧
      t.p.fifo = s.p.fifo ∧ t.p.frc = s.p.frc ∧ SameOutsideFrame s t ∧
      x = feed ⟨0, 0⟩ ([id.cls, id.id, BitVec.ofNat 8 payload.length, BitVec.ofNat 8 (payload.length / 256)] ++
        payload) ∧
      runCommands (rxFrame id payload) s = runCommands (rxFeed (payload ++ [x.a, x.b])) t

/-- R135: the parser does not refuse the sentinel id on the wire: from `Init` with an empty filter and room in the FIFO,
the good frame (00,02) with an empty payload is counted and queued, and QPOP answers for it, once at the head, what it
answers for a sentinel. -/
def Obligations.SentinelIdIsNotReservedOnTheWire : Prop :=
  (∀ s : State, s.p.state = .init → s.fault = none → s.p.filter = [] → s.cfg.fifoDepth ≠ some s.p.fifo.length →
    ∃ t, runCommands (rxFeed [0xB5, 0x62, 0x00, 0x02, 0x00, 0x00, 0x02, 0x06]) s = .next t ∧
      t.p.fifo = s.p.fifo ++ [sentinel] ∧ t.p.frc = (s.p.frc + 1) % 2 ^ s.cfg.wFrc ∧ t.p.state = .init) ∧
  (∀ (s : State) (q : List Packet), s.p.fifo = sentinel :: q →
    exec .qpop s = answered { s with p := { s.p with fifo := q } } [0x01, 0x00, 0x02, 0x00, 0x00])

/-! ### The parser's control commands -/

/-- R100: PRST is the byte 21; it writes `P.state <- Init` and nothing else, in every state. -/
def Obligations.PrstForcesInitAlone : Prop :=
  (∀ rest, decode (0x21 :: rest) = .ok (.prst, rest)) ∧
  (∀ s, exec .prst s = answered { s with p := { s.p with state := .init } } [])

/-- R101: FILT id is the bytes 22 c i; the filter becomes the one-member set, whatever it was, and nothing else
changes. -/
def Obligations.FiltInstallsOneMember : Prop :=
  ∀ (id : MessageId) (s : State),
    (∀ rest, decode (0x22 :: id.cls :: id.id :: rest) = .ok (.filt id, rest)) ∧
    exec (.filt id) s = answered { s with p := { s.p with filter := [id] } } []

/-- R102: FILTS is the bytes 23 n c0 i0 ..; it installs the set of the MessageIds it lists, without repeats, or is
refused with their number where the distinct ones are more than FILTER_SLOTS; nothing else changes. -/
def Obligations.FiltsInstallsTheSet : Prop :=
  ∀ (ids : List MessageId) (s : State),
    (ids.length ≤ 255 → ∀ rest, decode (0x23 :: BitVec.ofNat 8 ids.length ::
      ((ids.map fun m => [m.cls, m.id]).flatten ++ rest)) = .ok (.filts ids, rest)) ∧
    ∃ f : List MessageId, f.Nodup ∧ (∀ m, m ∈ f ↔ m ∈ ids) ∧
      (f.length ≤ s.cfg.filterSlots → exec (.filts ids) s = answered { s with p := { s.p with filter := f } } []) ∧
      (s.cfg.filterSlots < f.length → exec (.filts ids) s = .refused (.filterOverCapacity f.length))

/-- R22, R102: the operand of FILTS is a set: two lists with the same members have the same outcome in every state. -/
def Obligations.FiltsDiscardsOrderAndRepeats : Prop :=
  ∀ (ids ids' : List MessageId) (s : State), (∀ m, m ∈ ids ↔ m ∈ ids') → exec (.filts ids) s = exec (.filts ids') s

/-- R103: QCLR is the byte 24; it empties the FIFO and changes nothing else. -/
def Obligations.QclrEmptiesTheFifo : Prop :=
  (∀ rest, decode (0x24 :: rest) = .ok (.qclr, rest)) ∧
  (∀ s, exec .qclr s = answered { s with p := { s.p with fifo := [] } } [])

/-- R104: QPOP is the byte 25; it answers 00 on an empty FIFO, and otherwise removes the oldest packet and answers 01,
class, id, the payload length little-endian, and the payload. -/
def Obligations.QpopRemovesTheOldestPacket : Prop :=
  (∀ rest, decode (0x25 :: rest) = .ok (.qpop, rest)) ∧
  (∀ s : State, s.p.fifo = [] → exec .qpop s = answered s [0x00]) ∧
  (∀ (s : State) (pkt : Packet) (q : List Packet), s.p.fifo = pkt :: q →
    exec .qpop s = answered { s with p := { s.p with fifo := q } }
      ([0x01, pkt.id.cls, pkt.id.id, BitVec.ofNat 8 pkt.payload.length, BitVec.ofNat 8 (pkt.payload.length / 256)] ++
        pkt.payload))

/-- R105: FRCNT is the byte 26; it answers the counter as `W_FRC / 8` bytes, byte `k` being its bits `8k+7 .. 8k`, and
changes nothing. -/
def Obligations.FrcntReadsTheCounter : Prop :=
  (∀ rest, decode (0x26 :: rest) = .ok (.frcnt, rest)) ∧
  (∀ s : State, exec .frcnt s =
    answered s ((List.range (s.cfg.wFrc / 8)).map fun k => BitVec.ofNat 8 (s.p.frc / 2 ^ (8 * k))))

/-- R106: the write matrix: a command that answers a next state leaves every column it does not write alone, and no
command touches the fault, the parameters, the command stream or the RESET input; it adds one response. -/
def Obligations.CommandsWriteTheirColumnsOnly : Prop :=
  ∀ (i : Instr) (s t : State), exec i s = .next t →
    (∀ c : Column, c ∉ writes i → copyColumn c s t = t) ∧
    t.cfg = s.cfg ∧ t.fault = s.fault ∧ t.commands = s.commands ∧ t.resetIn = s.resetIn ∧
    ∃ r, t.responses = s.responses ++ [r]

/-- R106: the read matrix: replacing a column the command does not read (and does not push to or increment) changes
neither what it answers nor any other column: the outcome is the same but for that column, which is the replaced one
where the command does not write it. -/
def Obligations.CommandsReadTheirColumnsOnly : Prop :=
  ∀ (i : Instr) (c : Column) (s other : State), c ∉ reads i →
    (c ∉ writes i → exec i (copyColumn c other s) = mapOutcome (copyColumn c other) (exec i s)) ∧
    (c ∈ writes i → exec i (copyColumn c other s) = exec i s)

/-- R36: what each command moves: the bytes of CKADD, RXB, ENC and FILTS, and the length of every response. -/
def Obligations.CommandsMoveFixedAmounts : Prop :=
  (∀ b, (encode (.ckadd b)).length = 2 ∧ (encode (.rxb b)).length = 2) ∧
  (∀ id payload, (encode (.enc id payload)).length = 5 + payload.length) ∧
  (∀ ids, (encode (.filts ids)).length = 2 + 2 * ids.length) ∧
  ∀ (i : Instr) (s t : State), exec i s = .next t → ∃ r, t.responses = s.responses ++ [r] ∧
    r.length = match i with
      | .ckval => 2
      | .ckmat _ _ => 1
      | .enc _ payload => 8 + payload.length
      | .qpop => match s.p.fifo with
        | [] => 1
        | pkt :: _ => 5 + pkt.payload.length
      | .frcnt => s.cfg.wFrc / 8
      | _ => 0

/-- R23, R42, R108: a queued packet never changes and keeps its place: over one command that answers a next state the
FIFO is as before, or has one more packet at its tail (RXB), or has lost its head (QPOP), or is empty (QCLR). -/
def Obligations.QueuedPacketsNeverChange : Prop :=
  ∀ (i : Instr) (s t : State), exec i s = .next t →
    t.p.fifo = s.p.fifo ∨
    (∃ b pkt, i = .rxb b ∧ s.p.state = .crc2 ∧ t.p.fifo = s.p.fifo ++ [pkt]) ∨
    (∃ pkt, i = .qpop ∧ s.p.fifo = pkt :: t.p.fifo) ∨
    (i = .qclr ∧ t.p.fifo = [])

/-- R37: CKRST, PRST, QCLR, FILT and FILTS are idempotent: issued again at once they leave the same state, the second
response apart. -/
def Obligations.ResettingCommandsAreIdempotent : Prop :=
  ∀ (i : Instr) (s t : State), i.mnemonic ∈ [Mnemonic.ckrst, .prst, .qclr, .filt, .filts] → exec i s = .next t →
    exec i t = .next { t with responses := t.responses ++ [[]] }

/-- R65: FILT id has the effect of FILTS with the one member where the filter has a slot; CKFRAME leaves the frame's
checksum in `CK`; RXFRAME is the bytes of ENC's answer fed by RXB. -/
def Obligations.PseudoCommandsExpand : Prop :=
  (∀ (id : MessageId) (s : State), 1 ≤ s.cfg.filterSlots → exec (.filts [id]) s = exec (.filt id) s) ∧
  (∀ (id : MessageId) (payload : List Byte) (s : State), s.fault = none →
    ∃ t, runCommands (ckFrame id payload) s = .next t ∧ t.p = s.p ∧ t.ck = feed ⟨0, 0⟩
      ([id.cls, id.id, BitVec.ofNat 8 payload.length, BitVec.ofNat 8 (payload.length / 256)] ++ payload)) ∧
  (∀ (id : MessageId) (payload : List Byte) (s : State), payload.length ≤ 65535 →
    ∃ bytes, exec (.enc id payload) s = answered s bytes ∧ rxFrame id payload = bytes.map .rxb)

/-! ### Faults, refusals, reset -/

/-- R95, R111, R116: a command faults exactly where RXB would queue a packet into a full FIFO of finite depth, and the
state it leaves is the one before, the fault recorded. -/
def Obligations.CommandsFaultOnFifoOverflowOnly : Prop :=
  ∀ (i : Instr) (s : State) (f : Fault), exec i s = .fault f ↔
    (∃ b, i = .rxb b ∧ s.p.state = .crc2 ∧ s.cfg.fifoDepth = some s.p.fifo.length ∧
      ((s.p.ck.a = s.p.rxA ∧ s.p.ck.b = b) → s.p.filter = [] ∨ (⟨s.p.cls, s.p.id⟩ : MessageId) ∈ s.p.filter)) ∧
    f = .fifoOverflow { s with fault := some .fifoOverflow }

/-- R62, R63, R102: a command's own rule refuses exactly an ENC payload of more than 65535 bytes and a FILTS with more
distinct MessageIds than FILTER_SLOTS. -/
def Obligations.CommandsRefuseOverCapacityOnly : Prop :=
  ∀ (i : Instr) (s : State) (r : Refusal), exec i s = .refused r ↔
    (∃ id payload, i = .enc id payload ∧ 65535 < payload.length ∧ r = .payloadTooLong payload.length) ∨
    (∃ ids, i = .filts ids ∧ s.cfg.filterSlots < ids.toFinset.card ∧ r = .filterOverCapacity ids.toFinset.card)

/-- R111: with an unbounded FIFO no step faults, if no fault is recorded. -/
def Obligations.UnboundedFifoNeverFaults : Prop :=
  ∀ (s : State) (f : Fault), s.cfg.fifoDepth = none → s.fault = none → step s ≠ .fault f

/-- R114: a standing fault comes before everything but RESET: the step answers it, whatever the command stream holds,
with the state unchanged; so does every issued command. -/
def Obligations.StandingFaultAnswersEveryCommand : Prop :=
  ∀ (s : State), s.fault = some .fifoOverflow →
    (s.resetIn = false → step s = .fault (.fifoOverflow s)) ∧ (∀ i, issue i s = .fault (.fifoOverflow s))

/-- R57, R61: an opcode outside the twelve of the map is refused with the opcode byte. -/
def Obligations.IllegalOpcodesAreRefused : Prop :=
  ∀ (op : Byte) (bs : List Byte) (s : State),
    op ∉ ([0x01, 0x02, 0x03, 0x04, 0x10, 0x20, 0x21, 0x22, 0x23, 0x24, 0x25, 0x26] : List Byte) →
    s.resetIn = false → s.fault = none → s.commands = op :: bs → step s = .refused (.illegalOpcode op)

/-- R62: a command cut short before its length is refused with its opcode byte: every proper, nonempty prefix of the
encoding of a well-formed command, at the end of the command stream. -/
def Obligations.TruncatedCommandsAreRefused : Prop :=
  ∀ (i : Instr) (s : State) (op : Byte) (bs missing : List Byte), i.wf = true → encode i = op :: bs ++ missing →
    missing ≠ [] → s.resetIn = false → s.fault = none → s.commands = op :: bs → step s = .refused (.truncated op)

/-- R125: the state after RESET, field by field, for every choice of the parameters. -/
def Obligations.ResetStateHoldsTheResetValues : Prop :=
  ∀ cfg : Config,
    let s := State.resetWith cfg
    s.ck = ⟨0, 0⟩ ∧ s.fault = none ∧ s.p.state = .init ∧ s.p.ck = ⟨0, 0⟩ ∧
    s.p.cls = 0 ∧ s.p.id = 0 ∧ s.p.lenLo = 0 ∧ s.p.lenHi = 0 ∧ s.p.len = 0 ∧ s.p.ofs = 0 ∧
    s.p.rxA = 0 ∧ s.p.rxB = 0 ∧ s.p.filter = [] ∧ s.p.fifo = [] ∧ s.p.frc = 0

/-- R125, R111, R6: where the RESET input is asserted, the step leaves the reset state of the same parameters, the
recorded fault cleared; `State.reset` is that state for the default parameters of R6. That the command bytes not yet
executed stay, and that the responses and the RESET input are clear afterwards, are the model's choices (log entries 1, 2,
3, 6), and so is what the payload buffer then reads as (log entry 9). -/
def Obligations.ResetInputRestoresTheResetState : Prop :=
  (∀ s : State, s.resetIn = true → step s = .next { State.resetWith s.cfg with commands := s.commands }) ∧
  State.reset = State.resetWith ⟨none, 8, 32⟩

/-- R24, R94, R126: over one step without RESET that answers a next state, the counter rises by one modulo `2^W_FRC`
where the step is RXB in `Crc2` and finds the checksum equal, whatever the filter holds, and stays as it was in every
other step; so no step without RESET clears it. -/
def Obligations.CounterMovesOnGoodFramesOnly : Prop :=
  ∀ s t : State, s.resetIn = false → step s = .next t →
    let good := s.p.state = .crc2 ∧
      ∃ b rest, decode s.commands = .ok (.rxb b, rest) ∧ s.p.ck.a = s.p.rxA ∧ s.p.ck.b = b
    (good → t.p.frc = (s.p.frc + 1) % 2 ^ s.cfg.wFrc) ∧ (¬good → t.p.frc = s.p.frc)

/-! ### Invariants and hidden state -/

/-- R30, at reset: the invariants hold after RESET, for all legal parameters. -/
def Obligations.InvariantHoldsAtReset : Prop :=
  State.reset.Inv ∧ ∀ cfg : Config, cfg.wf = true → (State.resetWith cfg).Inv

/-- R30: every step keeps the invariants, from every state that meets them; a fault leaves a state that meets them. -/
def Obligations.EveryStepKeepsTheInvariant : Prop :=
  ∀ s : State, s.Inv →
    (∀ t, step s = .next t → t.Inv) ∧ (∀ t, step s = .fault (.fifoOverflow t) → t.Inv)

/-- R20, R29, U8, U9: the fields of the parser that the present frame has not written, and the bytes of the buffer at and
beyond the offset, cannot be observed: two states that differ in them only answer every command sequence alike. -/
def Obligations.HiddenFieldsAreUnobservable : Prop :=
  ∀ (is : List Instr) (s t : State), s.Inv → s.Alike t → OutcomesAlike (runCommands is s) (runCommands is t)

/-! ### Encoding and the step -/

/-- R56, R57, R58, R60: decoding the encoding of a well-formed command gives the command and what follows it. -/
def Obligations.DecodeOfEncode : Prop :=
  ∀ (i : Instr) (rest : List Byte), i.wf = true → decode (encode i ++ rest) = .ok (i, rest)

/-- R56, R60: what decodes is the encoding of the command read, which is well-formed. -/
def Obligations.EncodeOfDecode : Prop :=
  ∀ (bs : List Byte) (i : Instr) (rest : List Byte),
    decode bs = .ok (i, rest) → i.wf = true ∧ bs = encode i ++ rest

/-- R56, R57: command words written out from the spec decode to the commands they stand for. -/
def Obligations.KnownCommandWordsDecode : Prop :=
  decode [0x02, 0x05] = .ok (.ckadd 0x05, []) ∧
  decode [0x04, 0x16, 0x3F] = .ok (.ckmat 0x16 0x3F, []) ∧
  decode [0x10, 0x05, 0x01, 0x02, 0x00, 0x06, 0x08] = .ok (.enc ⟨0x05, 0x01⟩ [0x06, 0x08], []) ∧
  decode [0x20, 0xB5] = .ok (.rxb 0xB5, []) ∧
  decode [0x22, 0x05, 0x01] = .ok (.filt ⟨0x05, 0x01⟩, []) ∧
  decode [0x23, 0x02, 0x05, 0x01, 0x05, 0x00] = .ok (.filts [⟨0x05, 0x01⟩, ⟨0x05, 0x00⟩], []) ∧
  decode [0x25, 0x26] = .ok (.qpop, [0x26])

/-- R9, R38, R114: when the bytes at the head of the command stream decode to a well-formed command, and neither RESET
nor a standing fault comes first, the step is that command's own rule, and where that answers a next state the command's
bytes leave the stream. -/
def Obligations.StepRunsTheDecodedCommand : Prop :=
  ∀ (i : Instr) (s : State) (rest : List Byte), i.wf = true → s.resetIn = false → s.fault = none →
    decode s.commands = .ok (i, rest) →
    step s = match exec i s with
      | .next t => .next { t with commands := rest }
      | .fault f => .fault f
      | .refused r => .refused r

/-- R38, R55: the byte-level machine refines the abstract one: if a sequence of well-formed commands issued to a state
answers a next state, then as many steps on the stream of their encodings answer that state, with the bytes after the
commands still in the stream. -/
def Obligations.CommandStreamRunsTheCommands : Prop :=
  ∀ (is : List Instr) (s t : State) (rest : List Byte), (∀ i ∈ is, i.wf = true) → s.resetIn = false →
    runCommands is s = .next t →
    Host.Core.run core is.length { s with commands := encodeAll is ++ rest } = .next { t with commands := rest }

/-- R73, R74, R75, R76, R77: the MessageId operations: building and reading the two fields, equality by both, which
decides filter membership and whether a packet is the sentinel, and a hash that equal MessageIds share. -/
def Obligations.MessageIdsAreEqualByBothFields : Prop :=
  (∀ c i : Byte, midClass (midNew c i) = c ∧ midId (midNew c i) = i) ∧
  (∀ m n : MessageId, midEq m n = true ↔ midClass m = midClass n ∧ midId m = midId n) ∧
  (∀ m n : MessageId, midEq m n = true ↔ m = n) ∧
  (∀ (f : List MessageId) (m : MessageId), filterAdmits f m = true ↔ f = [] ∨ ∃ n ∈ f, midEq m n = true) ∧
  (∀ pkt : Packet, isSentinel pkt = true ↔ midClass pkt.id = 0x00 ∧ midId pkt.id = 0x02) ∧
  isSentinel sentinel = true ∧
  (∀ m n : MessageId, midEq m n = true → midHash m = midHash n)
end

