-- ==== Sys2Proof/Laws/Decode.lean ====
section
/-! SUPPORT. Byte order and operand forms: what the length operand and the operand lists read back as. -/

namespace Sys2Proof.Machine

/-- R50: the value of a length field. -/
theorem len16_toNat (lo hi : Byte) : (len16 lo hi).toNat = lo.toNat + 256 * hi.toNat := by
  have h1 := lo.isLt
  have h2 := hi.isLt
  simp only [len16, BitVec.toNat_add, BitVec.toNat_mul, BitVec.toNat_ofNat, BitVec.truncate_eq_setWidth,
    BitVec.toNat_setWidth]
  omega

@[simp] theorem lo8_toNat (n : Nat) : (lo8 n).toNat = n % 256 := by simp [lo8]

@[simp] theorem hi8_toNat (n : Nat) : (hi8 n).toNat = n / 256 % 256 := by simp [hi8]

/-- R50: a length of at most 65535 reads back from its two bytes. -/
theorem len16_lo8_hi8 {n : Nat} (h : n ≤ 65535) : (len16 (lo8 n) (hi8 n)).toNat = n := by
  rw [len16_toNat, lo8_toNat, hi8_toNat]
  omega

@[simp] theorem length_leBytes (n v : Nat) : (leBytes n v).length = n := by
  induction n generalizing v with
  | zero => rfl
  | succ n ih => simp [leBytes, ih]

@[simp] theorem length_idBytes (ids : List MessageId) : (idBytes ids).length = 2 * ids.length := by
  induction ids with
  | nil => rfl
  | cons m ms ih => simp [idBytes, ih]; omega

/-- R56: the payload bytes of format CE read back. -/
theorem takeBytes_append (x y : List Byte) : takeBytes x.length (x ++ y) = some (x, y) := by
  simp [takeBytes]

/-- R56: the MessageIds of format CF read back. -/
theorem takeIds_append (ids : List MessageId) (rest : List Byte) :
    takeIds ids.length (idBytes ids ++ rest) = some (ids, rest) := by
  induction ids with
  | nil => rfl
  | cons m ms ih => simp [idBytes, takeIds, ih]

/-- R56: what a list of MessageIds was read from. -/
theorem takeIds_some {n : Nat} {bs rest : List Byte} {ids : List MessageId} (h : takeIds n bs = some (ids, rest)) :
    ids.length = n ∧ bs = idBytes ids ++ rest := by
  induction n generalizing bs ids with
  | zero =>
    simp only [takeIds, Option.some.injEq, Prod.mk.injEq] at h
    obtain ⟨rfl, rfl⟩ := h
    exact ⟨rfl, rfl⟩
  | succ n ih =>
    match bs with
    | [] => cases h
    | [_] => cases h
    | c :: i :: bs =>
      simp only [takeIds] at h
      cases ht : takeIds n bs with
      | none => rw [ht] at h; cases h
      | some r =>
        obtain ⟨ids', rest'⟩ := r
        rw [ht] at h
        simp only [Option.some.injEq, Prod.mk.injEq] at h
        obtain ⟨rfl, rfl⟩ := h
        obtain ⟨hl, hb⟩ := ih ht
        exact ⟨by simp [hl], by simp [idBytes, hb]⟩

/-- R56: what payload bytes were read from. -/
theorem takeBytes_some {n : Nat} {bs x y : List Byte} (h : takeBytes n bs = some (x, y)) :
    x.length = n ∧ bs = x ++ y := by
  unfold takeBytes at h
  split at h
  · cases h
  · simp only [Option.some.injEq, Prod.mk.injEq] at h
    obtain ⟨rfl, rfl⟩ := h
    refine ⟨by simp; omega, by simp⟩

/-- R57: every row of the opcode map is found by its opcode. -/
theorem mnemonicOf_opcode (m : Mnemonic) : mnemonicOf m.opcode = some m := by
  cases m <;> decide

/-- R57: an opcode selects the row that has it. -/
theorem mnemonicOf_some {op : Byte} {m : Mnemonic} (h : mnemonicOf op = some m) : m.opcode = op := by
  simpa using List.find?_some h

end Sys2Proof.Machine
end

