-- ==== Sys2Proof/Laws/Memory.lean ====
section
/-! SUPPORT. The payload buffer: a read after a write, every operation keeps the canonical form, and the prefix a frame
has written. -/

namespace Sys2Proof.Machine

theorem Memory.read_insertCell_same (i : Nat) (v : Byte) (m : Memory) (h : ∀ c ∈ m, c.1 ≠ i) :
    (Memory.insertCell i v m).read i = v := by
  induction m with
  | nil => simp [Memory.insertCell, Memory.read]
  | cons c m ih =>
    have hc : c.1 ≠ i := h c (by simp)
    unfold Memory.insertCell
    split
    · simp [Memory.read]
    · simp [Memory.read, hc, ih fun d hd => h d (by simp [hd])]

theorem Memory.read_insertCell_other {i j : Nat} (h : j ≠ i) (v : Byte) (m : Memory) :
    (Memory.insertCell i v m).read j = m.read j := by
  induction m with
  | nil => simp [Memory.insertCell, Memory.read, h.symm]
  | cons c m ih =>
    unfold Memory.insertCell
    split
    · simp [Memory.read, h.symm]
    · simp [Memory.read, ih]

theorem Memory.read_erase_other {i j : Nat} (h : j ≠ i) (m : Memory) :
    Memory.read (m.filter fun c => c.1 != i) j = m.read j := by
  induction m with
  | nil => rfl
  | cons c m ih =>
    by_cases hc : c.1 = i
    · simp [Memory.read, hc, ih, h.symm]
    · simp [Memory.read, hc, ih]

theorem Memory.read_erase_same (i : Nat) (m : Memory) :
    Memory.read (m.filter fun c => c.1 != i) i = Memory.unlisted := by
  induction m with
  | nil => rfl
  | cons c m ih =>
    by_cases hc : c.1 = i
    · simp [hc, ih]
    · simp [Memory.read, hc, ih]

/-- A read after a write to the same index gives the value written. -/
@[simp] theorem Memory.read_write_same (m : Memory) (i : Nat) (v : Byte) : (m.write i v).read i = v := by
  unfold Memory.write
  split
  · rename_i h
    rw [Memory.read_erase_same, h]
  · exact Memory.read_insertCell_same _ _ _ (by simp)

/-- A write leaves every other index alone. -/
theorem Memory.read_write_other {i j : Nat} (h : j ≠ i) (m : Memory) (v : Byte) :
    (m.write i v).read j = m.read j := by
  unfold Memory.write
  split
  · exact Memory.read_erase_other h m
  · rw [Memory.read_insertCell_other h, Memory.read_erase_other h]

theorem Memory.mem_insertCell {i : Nat} {v : Byte} {m : Memory} {c : Host.Cell}
    (h : c ∈ Memory.insertCell i v m) : c = (i, v) ∨ c ∈ m := by
  induction m with
  | nil => simpa [Memory.insertCell] using h
  | cons d m ih =>
    unfold Memory.insertCell at h
    split at h
    · simpa using h
    · rcases List.mem_cons.mp h with rfl | h
      · simp
      · rcases ih h with rfl | h <;> simp [*]

theorem Memory.pairwise_insertCell {i : Nat} {v : Byte} {m : Memory} (hp : m.Pairwise (fun c d => c.1 < d.1))
    (hi : ∀ c ∈ m, c.1 ≠ i) : (Memory.insertCell i v m).Pairwise (fun c d => c.1 < d.1) := by
  induction m with
  | nil => simp [Memory.insertCell]
  | cons d m ih =>
    have hd := List.pairwise_cons.mp hp
    unfold Memory.insertCell
    split
    · rename_i hlt
      refine List.pairwise_cons.mpr ⟨?_, hp⟩
      intro c hc
      rcases List.mem_cons.mp hc with rfl | hc
      · exact hlt
      · exact Nat.lt_trans hlt (hd.1 c hc)
    · rename_i hge
      refine List.pairwise_cons.mpr ⟨?_, ih hd.2 fun c hc => hi c (by simp [hc])⟩
      intro c hc
      rcases Memory.mem_insertCell hc with rfl | hc
      · have := hi d (by simp)
        simp only at hge ⊢
        omega
      · exact hd.1 c hc

/-- A write within the buffer keeps the canonical form. -/
theorem Memory.wf_write {m : Memory} (h : m.wf) {i : Nat} (hi : i < Config.maxLen) (v : Byte) : (m.write i v).wf := by
  have hp : (m.filter fun c => c.1 != i).Pairwise (fun c d => c.1 < d.1) := h.1.filter _
  unfold Memory.write
  split
  · exact ⟨hp, fun c hc => h.2 c (List.mem_of_mem_filter hc)⟩
  · rename_i hv
    refine ⟨Memory.pairwise_insertCell hp (by simp), ?_⟩
    intro c hc
    rcases Memory.mem_insertCell hc with rfl | hc
    · exact ⟨hi, hv⟩
    · exact h.2 c (List.mem_of_mem_filter hc)

/-- `BufWrite` keeps the canonical form. -/
theorem bufWrite_wf {m : Memory} (h : m.wf) (i : Nat) (v : Byte) : (bufWrite m i v).wf := by
  unfold bufWrite
  split
  · exact Memory.wf_write h ‹_› v
  · exact h

/-- What an index reads after `BufWrite`. -/
theorem read_bufWrite (m : Memory) (i j : Nat) (v : Byte) :
    (bufWrite m i v).read j = if j = i ∧ i < Config.maxLen then v else m.read j := by
  unfold bufWrite
  by_cases hi : i < Config.maxLen
  · by_cases hj : j = i
    · subst hj; simp [hi]
    · simp [hi, hj, Memory.read_write_other hj]
  · simp [hi]

@[simp] theorem length_bufPrefix (m : Memory) (n : Nat) : (bufPrefix m n).length = n := by
  simp [bufPrefix]

@[simp] theorem bufPrefix_zero (m : Memory) : bufPrefix m 0 = [] := rfl

theorem bufPrefix_congr {m m' : Memory} {n : Nat} (h : ∀ k < n, m.read k = m'.read k) :
    bufPrefix m n = bufPrefix m' n := by
  simp only [bufPrefix]
  exact List.map_congr_left fun k hk => h k (List.mem_range.mp hk)

/-- R91: `BufWrite` at the end of a prefix appends to it. -/
theorem bufPrefix_bufWrite {n : Nat} (h : n < Config.maxLen) (m : Memory) (v : Byte) :
    bufPrefix (bufWrite m n v) (n + 1) = bufPrefix m n ++ [v] := by
  have : bufPrefix (bufWrite m n v) (n + 1) = bufPrefix (bufWrite m n v) n ++ [(bufWrite m n v).read n] := by
    simp [bufPrefix, List.range_succ]
  have keep : bufPrefix (bufWrite m n v) n = bufPrefix m n :=
    bufPrefix_congr fun k hk => by rw [read_bufWrite, if_neg (by omega)]
  rw [this, read_bufWrite, if_pos ⟨rfl, h⟩, keep]

end Sys2Proof.Machine
end

