-- ==== Sys2Proof/Laws/State.lean ====
section
/-! SUPPORT. One lemma for each field and each named update of the state and of the parser, so that no later proof
unfolds a record update. -/

namespace Sys2Proof.Machine

section StateUpdates

variable (s : State) (x : Cksum) (p : Parser) (r : FaultReason) (bs : List Byte)

@[simp] theorem State.setCk_cfg : (s.setCk x).cfg = s.cfg := rfl
@[simp] theorem State.setCk_ck : (s.setCk x).ck = x := rfl
@[simp] theorem State.setCk_p : (s.setCk x).p = s.p := rfl
@[simp] theorem State.setCk_fault : (s.setCk x).fault = s.fault := rfl
@[simp] theorem State.setCk_commands : (s.setCk x).commands = s.commands := rfl
@[simp] theorem State.setCk_responses : (s.setCk x).responses = s.responses := rfl
@[simp] theorem State.setCk_resetIn : (s.setCk x).resetIn = s.resetIn := rfl

@[simp] theorem State.setP_cfg : (s.setP p).cfg = s.cfg := rfl
@[simp] theorem State.setP_ck : (s.setP p).ck = s.ck := rfl
@[simp] theorem State.setP_p : (s.setP p).p = p := rfl
@[simp] theorem State.setP_fault : (s.setP p).fault = s.fault := rfl
@[simp] theorem State.setP_commands : (s.setP p).commands = s.commands := rfl
@[simp] theorem State.setP_responses : (s.setP p).responses = s.responses := rfl
@[simp] theorem State.setP_resetIn : (s.setP p).resetIn = s.resetIn := rfl

@[simp] theorem State.setFault_cfg : (s.setFault r).cfg = s.cfg := rfl
@[simp] theorem State.setFault_ck : (s.setFault r).ck = s.ck := rfl
@[simp] theorem State.setFault_p : (s.setFault r).p = s.p := rfl
@[simp] theorem State.setFault_fault : (s.setFault r).fault = some r := rfl
@[simp] theorem State.setFault_commands : (s.setFault r).commands = s.commands := rfl
@[simp] theorem State.setFault_responses : (s.setFault r).responses = s.responses := rfl
@[simp] theorem State.setFault_resetIn : (s.setFault r).resetIn = s.resetIn := rfl

@[simp] theorem State.addResponse_cfg : (s.addResponse bs).cfg = s.cfg := rfl
@[simp] theorem State.addResponse_ck : (s.addResponse bs).ck = s.ck := rfl
@[simp] theorem State.addResponse_p : (s.addResponse bs).p = s.p := rfl
@[simp] theorem State.addResponse_fault : (s.addResponse bs).fault = s.fault := rfl
@[simp] theorem State.addResponse_commands : (s.addResponse bs).commands = s.commands := rfl
@[simp] theorem State.addResponse_responses : (s.addResponse bs).responses = s.responses ++ [bs] := rfl
@[simp] theorem State.addResponse_resetIn : (s.addResponse bs).resetIn = s.resetIn := rfl

@[simp] theorem State.setCommands_cfg : (s.setCommands bs).cfg = s.cfg := rfl
@[simp] theorem State.setCommands_ck : (s.setCommands bs).ck = s.ck := rfl
@[simp] theorem State.setCommands_p : (s.setCommands bs).p = s.p := rfl
@[simp] theorem State.setCommands_fault : (s.setCommands bs).fault = s.fault := rfl
@[simp] theorem State.setCommands_commands : (s.setCommands bs).commands = bs := rfl
@[simp] theorem State.setCommands_responses : (s.setCommands bs).responses = s.responses := rfl
@[simp] theorem State.setCommands_resetIn : (s.setCommands bs).resetIn = s.resetIn := rfl

end StateUpdates

section ParserUpdates

variable (p : Parser) (x : ParserState) (f : List MessageId) (q : List Packet)

@[simp] theorem Parser.setState_state : (p.setState x).state = x := rfl
@[simp] theorem Parser.setState_ck : (p.setState x).ck = p.ck := rfl
@[simp] theorem Parser.setState_cls : (p.setState x).cls = p.cls := rfl
@[simp] theorem Parser.setState_id : (p.setState x).id = p.id := rfl
@[simp] theorem Parser.setState_lenLo : (p.setState x).lenLo = p.lenLo := rfl
@[simp] theorem Parser.setState_lenHi : (p.setState x).lenHi = p.lenHi := rfl
@[simp] theorem Parser.setState_len : (p.setState x).len = p.len := rfl
@[simp] theorem Parser.setState_ofs : (p.setState x).ofs = p.ofs := rfl
@[simp] theorem Parser.setState_buf : (p.setState x).buf = p.buf := rfl
@[simp] theorem Parser.setState_rxA : (p.setState x).rxA = p.rxA := rfl
@[simp] theorem Parser.setState_rxB : (p.setState x).rxB = p.rxB := rfl
@[simp] theorem Parser.setState_filter : (p.setState x).filter = p.filter := rfl
@[simp] theorem Parser.setState_fifo : (p.setState x).fifo = p.fifo := rfl
@[simp] theorem Parser.setState_frc : (p.setState x).frc = p.frc := rfl

@[simp] theorem Parser.setFilter_state : (p.setFilter f).state = p.state := rfl
@[simp] theorem Parser.setFilter_ck : (p.setFilter f).ck = p.ck := rfl
@[simp] theorem Parser.setFilter_cls : (p.setFilter f).cls = p.cls := rfl
@[simp] theorem Parser.setFilter_id : (p.setFilter f).id = p.id := rfl
@[simp] theorem Parser.setFilter_lenLo : (p.setFilter f).lenLo = p.lenLo := rfl
@[simp] theorem Parser.setFilter_lenHi : (p.setFilter f).lenHi = p.lenHi := rfl
@[simp] theorem Parser.setFilter_len : (p.setFilter f).len = p.len := rfl
@[simp] theorem Parser.setFilter_ofs : (p.setFilter f).ofs = p.ofs := rfl
@[simp] theorem Parser.setFilter_buf : (p.setFilter f).buf = p.buf := rfl
@[simp] theorem Parser.setFilter_rxA : (p.setFilter f).rxA = p.rxA := rfl
@[simp] theorem Parser.setFilter_rxB : (p.setFilter f).rxB = p.rxB := rfl
@[simp] theorem Parser.setFilter_filter : (p.setFilter f).filter = f := rfl
@[simp] theorem Parser.setFilter_fifo : (p.setFilter f).fifo = p.fifo := rfl
@[simp] theorem Parser.setFilter_frc : (p.setFilter f).frc = p.frc := rfl

@[simp] theorem Parser.setFifo_state : (p.setFifo q).state = p.state := rfl
@[simp] theorem Parser.setFifo_ck : (p.setFifo q).ck = p.ck := rfl
@[simp] theorem Parser.setFifo_cls : (p.setFifo q).cls = p.cls := rfl
@[simp] theorem Parser.setFifo_id : (p.setFifo q).id = p.id := rfl
@[simp] theorem Parser.setFifo_lenLo : (p.setFifo q).lenLo = p.lenLo := rfl
@[simp] theorem Parser.setFifo_lenHi : (p.setFifo q).lenHi = p.lenHi := rfl
@[simp] theorem Parser.setFifo_len : (p.setFifo q).len = p.len := rfl
@[simp] theorem Parser.setFifo_ofs : (p.setFifo q).ofs = p.ofs := rfl
@[simp] theorem Parser.setFifo_buf : (p.setFifo q).buf = p.buf := rfl
@[simp] theorem Parser.setFifo_rxA : (p.setFifo q).rxA = p.rxA := rfl
@[simp] theorem Parser.setFifo_rxB : (p.setFifo q).rxB = p.rxB := rfl
@[simp] theorem Parser.setFifo_filter : (p.setFifo q).filter = p.filter := rfl
@[simp] theorem Parser.setFifo_fifo : (p.setFifo q).fifo = q := rfl
@[simp] theorem Parser.setFifo_frc : (p.setFifo q).frc = p.frc := rfl

end ParserUpdates

end Sys2Proof.Machine
end

