-- ==== Sys2Proof/Laws/Outcomes.lean ====
section
/-! SUPPORT. What the shared operations a command ends in can answer, and what one step can do. -/

namespace Sys2Proof.Machine

theorem emit_next {r : List Byte} {s t : State} : emit r s = .next t ↔ t = s.addResponse r := by
  simp [emit, eq_comm]

theorem emit_ne_fault {r : List Byte} {s : State} {f : Fault} : emit r s ≠ .fault f := by simp [emit]

theorem emit_ne_refused {r : List Byte} {s : State} {e : Refusal} : emit r s ≠ .refused e := by simp [emit]

/-- R116: the state a raised fault leaves. -/
theorem raiseFault_eq (r : FaultReason) (s : State) :
    raiseFault r s = .fault (.fifoOverflow { s with fault := some .fifoOverflow }) := by
  cases r; rfl

theorem unlessFaulted_none {s : State} (h : s.fault = none) (o : Host.Outcome State Fault Refusal) :
    unlessFaulted s o = o := by
  simp [unlessFaulted, h]

/-- R114.1: with a standing fault the step answers it, with the state unchanged. -/
theorem unlessFaulted_some {s : State} {r : FaultReason} (h : s.fault = some r) (o : Host.Outcome State Fault Refusal) :
    unlessFaulted s o = .fault (.fifoOverflow s) := by
  cases r; simp [unlessFaulted, h, faultOf]

theorem unlessFaulted_next {s t : State} {o : Host.Outcome State Fault Refusal} (h : unlessFaulted s o = .next t) :
    s.fault = none ∧ o = .next t := by
  cases hf : s.fault with
  | none => exact ⟨rfl, by rwa [unlessFaulted_none hf] at h⟩
  | some r => rw [unlessFaulted_some hf] at h; cases h

theorem consume_next {rest : List Byte} {o : Host.Outcome State Fault Refusal} {t : State}
    (h : consume rest o = .next t) : ∃ u, o = .next u ∧ t = u.setCommands rest := by
  cases o with
  | next u => exact ⟨u, rfl, by simpa [consume, eq_comm] using h⟩
  | fault f => cases h
  | refused r => cases h

/-- R95: what `Enqueue` can answer. -/
theorem enqueue_ok {cfg : Config} {pkt : Packet} {p q : Parser} (h : enqueue cfg pkt p = .ok q) :
    cfg.fifoDepth ≠ some p.fifo.length ∧ q = p.setFifo (p.fifo ++ [pkt]) := by
  unfold enqueue at h
  split at h
  · cases h
  · exact ⟨‹_›, by cases h; rfl⟩

theorem enqueue_error {cfg : Config} {pkt : Packet} {p : Parser} {r : FaultReason}
    (h : enqueue cfg pkt p = .error r) : cfg.fifoDepth = some p.fifo.length ∧ r = .fifoOverflow := by
  unfold enqueue at h
  split at h
  · exact ⟨‹_›, by cases h; rfl⟩
  · cases h

/-- `Enqueue` in a FIFO that is not full. -/
theorem enqueue_of_room {cfg : Config} {p : Parser} (h : cfg.fifoDepth ≠ some p.fifo.length) (pkt : Packet) :
    enqueue cfg pkt p = .ok (p.setFifo (p.fifo ++ [pkt])) := by
  simp [enqueue, h, Parser.setFifo]

/-- `Enqueue` in a full FIFO. -/
theorem enqueue_of_full {cfg : Config} {p : Parser} (h : cfg.fifoDepth = some p.fifo.length) (pkt : Packet) :
    enqueue cfg pkt p = .error .fifoOverflow := by
  simp [enqueue, h]

/-- Everything one step that answers a next state can have done: a RESET, an idle step, or one command. -/
theorem step_next {s t : State} (h : step s = .next t) :
    (s.resetIn = true ∧ t = applyReset s) ∨
    (s.resetIn = false ∧ s.fault = none ∧ decode s.commands = .error .noCommand ∧ t = s) ∨
    (s.resetIn = false ∧ s.fault = none ∧ ∃ i rest u, decode s.commands = .ok (i, rest) ∧ exec i s = .next u ∧
      t = u.setCommands rest) := by
  unfold step stepBy at h
  cases hr : s.resetIn with
  | true =>
    simp only [hr, Host.Outcome.next.injEq] at h
    exact .inl ⟨rfl, h.symm⟩
  | false =>
    simp only [hr] at h
    unfold fetch at h
    cases hd : decode s.commands with
    | error e =>
      cases e with
      | noCommand =>
        simp only [hd] at h
        obtain ⟨hf, h⟩ := unlessFaulted_next h
        injection h with h
        exact .inr (.inl ⟨rfl, hf, rfl, h.symm⟩)
      | illegalOpcode op =>
        simp only [hd] at h
        exact absurd (unlessFaulted_next h).2 (by simp)
      | truncated op =>
        simp only [hd] at h
        exact absurd (unlessFaulted_next h).2 (by simp)
    | ok r =>
      obtain ⟨i, rest⟩ := r
      simp only [hd] at h
      obtain ⟨hf, h⟩ := unlessFaulted_next h
      obtain ⟨u, hu, ht⟩ := consume_next h
      exact .inr (.inr ⟨rfl, hf, i, rest, u, rfl, hu, ht⟩)

end Sys2Proof.Machine
end

