-- ==== Sys2Proof/Laws/Receive.lean ====
section
/-! SUPPORT. What one transition of the parser can do: one equation for each state (R84 to R94), and what RXB answers. -/

namespace Sys2Proof.Machine

variable {cfg : Config} {b : Byte} {p : Parser}

theorem rxStep_init (h : p.state = .init) : rxStep cfg b p = .ok (rxInit b p) := by simp [rxStep, h]
theorem rxStep_sync1 (h : p.state = .sync1) : rxStep cfg b p = .ok (rxSync1 b p) := by simp [rxStep, h]
theorem rxStep_cls (h : p.state = .cls) : rxStep cfg b p = .ok (rxClass b p) := by simp [rxStep, h]
theorem rxStep_id (h : p.state = .id) : rxStep cfg b p = .ok (rxId b p) := by simp [rxStep, h]
theorem rxStep_len1 (h : p.state = .len1) : rxStep cfg b p = .ok (rxLen1 b p) := by simp [rxStep, h]
theorem rxStep_len2 (h : p.state = .len2) : rxStep cfg b p = .ok (rxLen2 b p) := by simp [rxStep, h]
theorem rxStep_data (h : p.state = .data) : rxStep cfg b p = .ok (rxData b p) := by simp [rxStep, h]
theorem rxStep_crc1 (h : p.state = .crc1) : rxStep cfg b p = .ok (rxCrc1 b p) := by simp [rxStep, h]
theorem rxStep_crc2 (h : p.state = .crc2) : rxStep cfg b p = rxCrc2 cfg b p := by simp [rxStep, h]

@[simp] theorem cksumMatches_iff (x : Cksum) (ra rb : Byte) :
    cksumMatches x ra rb = true ↔ x.a = ra ∧ x.b = rb := by
  simp [cksumMatches]

@[simp] theorem filterAdmits_iff (f : List MessageId) (m : MessageId) :
    filterAdmits f m = true ↔ f = [] ∨ m ∈ f := by
  simp [filterAdmits]

/-- R94: a good frame the filter in force admits is counted and queued. -/
theorem rxCrc2_admitted (hm : p.ck.a = p.rxA ∧ p.ck.b = b) (ha : p.filter = [] ∨ ⟨p.cls, p.id⟩ ∈ p.filter)
    (hq : cfg.fifoDepth ≠ some p.fifo.length) :
    rxCrc2 cfg b p = .ok { p with rxB := b, frc := (p.frc + 1) % 2 ^ cfg.wFrc,
                                  fifo := p.fifo ++ [⟨⟨p.cls, p.id⟩, p.payload⟩], state := .init } := by
  simp [rxCrc2, enqueueAndRestart, enqueue, hm.1, hm.2, cksumMatches, (filterAdmits_iff _ _).mpr ha, hq, framePacket,
    Parser.payload]

/-- R94: a good frame the filter drops is counted. -/
theorem rxCrc2_dropped (hm : p.ck.a = p.rxA ∧ p.ck.b = b) (ha : ¬(p.filter = [] ∨ ⟨p.cls, p.id⟩ ∈ p.filter)) :
    rxCrc2 cfg b p = .ok { p with rxB := b, frc := (p.frc + 1) % 2 ^ cfg.wFrc, state := .init } := by
  have : filterAdmits p.filter ⟨p.cls, p.id⟩ = false := by
    rw [Bool.eq_false_iff]
    exact fun h => ha ((filterAdmits_iff _ _).mp h)
  simp [rxCrc2, hm.1, hm.2, cksumMatches, this]

/-- R94: a checksum mismatch queues the sentinel, whatever the filter holds. -/
theorem rxCrc2_mismatch (hm : ¬(p.ck.a = p.rxA ∧ p.ck.b = b)) (hq : cfg.fifoDepth ≠ some p.fifo.length) :
    rxCrc2 cfg b p = .ok { p with rxB := b, fifo := p.fifo ++ [⟨⟨0x00, 0x02⟩, []⟩], state := .init } := by
  have : cksumMatches p.ck p.rxA b = false := by
    rw [Bool.eq_false_iff]
    exact fun h => hm ((cksumMatches_iff _ _ _).mp h)
  simp [rxCrc2, enqueueAndRestart, enqueue, this, hq, sentinel, Config.sentinelId]

/-- R95: `Crc2` faults where it would queue into a full FIFO. -/
theorem rxCrc2_full (hq : cfg.fifoDepth = some p.fifo.length)
    (h : ¬(p.ck.a = p.rxA ∧ p.ck.b = b) ∨ p.filter = [] ∨ ⟨p.cls, p.id⟩ ∈ p.filter) :
    rxCrc2 cfg b p = .error .fifoOverflow := by
  by_cases hm : p.ck.a = p.rxA ∧ p.ck.b = b
  · have ha := h.resolve_left (by simp [hm])
    simp [rxCrc2, enqueueAndRestart, enqueue, hm.1, hm.2, cksumMatches, (filterAdmits_iff _ _).mpr ha, hq]
  · have : cksumMatches p.ck p.rxA b = false := by
      rw [Bool.eq_false_iff]
      exact fun h => hm ((cksumMatches_iff _ _ _).mp h)
    simp [rxCrc2, enqueueAndRestart, enqueue, this, hq]

/-- R91: the offset after one payload byte. -/
theorem rxData_ofs (h : p.ofs.toNat < Config.maxLen) : (rxData b p).ofs.toNat = p.ofs.toNat + 1 := by
  simp only [rxData, BitVec.toNat_add, BitVec.toNat_ofNat, Config.maxLen] at h ⊢
  omega

/-- R91, R20: one byte in `Data` appends to the defined content of the buffer. -/
theorem rxData_payload (h : p.ofs.toNat < Config.maxLen) : (rxData b p).payload = p.payload ++ [b] := by
  rw [Parser.payload, rxData_ofs h]
  exact bufPrefix_bufWrite h _ _

/-- R98: the only way a transition can fail. -/
theorem rxStep_error {r : FaultReason} (h : rxStep cfg b p = .error r) :
    p.state = .crc2 ∧ cfg.fifoDepth = some p.fifo.length ∧
      (¬(p.ck.a = p.rxA ∧ p.ck.b = b) ∨ p.filter = [] ∨ ⟨p.cls, p.id⟩ ∈ p.filter) := by
  cases hs : p.state <;> simp only [rxStep, hs] at h <;> try cases h
  refine ⟨rfl, ?_⟩
  by_cases hm : p.ck.a = p.rxA ∧ p.ck.b = b
  · by_cases ha : p.filter = [] ∨ ⟨p.cls, p.id⟩ ∈ p.filter
    · refine ⟨?_, .inr ha⟩
      by_contra hq
      rw [rxCrc2_admitted hm ha hq] at h
      cases h
    · rw [rxCrc2_dropped hm ha] at h
      cases h
  · refine ⟨?_, .inl hm⟩
    by_contra hq
    rw [rxCrc2_mismatch hm hq] at h
    cases h

/-- R83: RXB answers a next state exactly where the transition succeeds. -/
theorem execRxb_next {s t : State} :
    execRxb b s = .next t ↔ ∃ p, rxStep s.cfg b s.p = .ok p ∧ t = (s.setP p).addResponse [] := by
  unfold execRxb
  cases h : rxStep s.cfg b s.p with
  | ok p => simp [emit_next]
  | error r => simp [raiseFault]

/-- R95, R116: RXB faults exactly where the transition does, and the state left is the one before, the fault recorded. -/
theorem execRxb_fault {s : State} {f : Fault} :
    execRxb b s = .fault f ↔
      (∃ r, rxStep s.cfg b s.p = .error r) ∧ f = .fifoOverflow { s with fault := some .fifoOverflow } := by
  unfold execRxb
  cases h : rxStep s.cfg b s.p with
  | ok p => simp [emit]
  | error r => simpa [raiseFault_eq, eq_comm] using fun _ => ⟨r⟩

theorem execRxb_ok {s : State} {q : Parser} (h : rxStep s.cfg b s.p = .ok q) :
    execRxb b s = .next ((s.setP q).addResponse []) := by
  simp [execRxb, h, emit]

end Sys2Proof.Machine
end

