-- ==== Sys2Proof/Laws/Exec.lean ====
section
/-! SUPPORT. Everything a command that answers a next state can have done, said once. -/

namespace Sys2Proof.Machine

/-- A command that answers a next state replaced the accumulator, the parser and nothing else, and recorded one response;
with which values, the rule of the command says (R67 to R105). -/
theorem exec_next {i : Instr} {s t : State} (h : exec i s = .next t) :
    ∃ (x : Cksum) (p : Parser) (r : List Byte), t = ((s.setCk x).setP p).addResponse r ∧
      match i with
      | .ckrst => x = ⟨0, 0⟩ ∧ p = s.p ∧ r = []
      | .ckadd b => x = addByte s.ck b ∧ p = s.p ∧ r = []
      | .ckval => x = s.ck ∧ p = s.p ∧ r = [s.ck.a, s.ck.b]
      | .ckmat ra rb => x = s.ck ∧ p = s.p ∧ r = [boolByte (cksumMatches s.ck ra rb)]
      | .enc id payload => x = s.ck ∧ p = s.p ∧ r = encodeFrame id payload ∧ payload.length ≤ Config.encMax
      | .rxb b => x = s.ck ∧ rxStep s.cfg b s.p = .ok p ∧ r = []
      | .prst => x = s.ck ∧ p = s.p.setState .init ∧ r = []
      | .filt id => x = s.ck ∧ p = s.p.setFilter [id] ∧ r = []
      | .filts ids => x = s.ck ∧ p = s.p.setFilter (filterOfList ids) ∧ r = [] ∧
          (filterOfList ids).length ≤ s.cfg.filterSlots
      | .qclr => x = s.ck ∧ p = s.p.setFifo [] ∧ r = []
      | .qpop => x = s.ck ∧ match s.p.fifo with
        | [] => p = s.p ∧ r = [0x00]
        | pkt :: q => p = s.p.setFifo q ∧ r = 0x01 :: packetBytes pkt
      | .frcnt => x = s.ck ∧ p = s.p ∧ r = leBytes (s.cfg.wFrc / 8) s.p.frc := by
  cases i with
  | ckrst => exact ⟨⟨0, 0⟩, s.p, [], emit_next.mp h, rfl, rfl, rfl⟩
  | ckadd b => exact ⟨addByte s.ck b, s.p, [], emit_next.mp h, rfl, rfl, rfl⟩
  | ckval => exact ⟨_, _, _, emit_next.mp h, rfl, rfl, rfl⟩
  | ckmat ra rb => exact ⟨_, _, _, emit_next.mp h, rfl, rfl, rfl⟩
  | enc id payload =>
    simp only [exec, execEnc] at h
    split at h
    · cases h
    · exact ⟨_, _, _, emit_next.mp h, rfl, rfl, rfl, by omega⟩
  | rxb b =>
    obtain ⟨p, hp, ht⟩ := execRxb_next.mp h
    exact ⟨_, p, _, ht, rfl, hp, rfl⟩
  | prst => exact ⟨_, _, _, emit_next.mp h, rfl, rfl, rfl⟩
  | filt id => exact ⟨_, _, _, emit_next.mp h, rfl, rfl, rfl⟩
  | filts ids =>
    simp only [exec, execFilts] at h
    split at h
    · cases h
    · exact ⟨_, _, _, emit_next.mp h, rfl, rfl, rfl, by omega⟩
  | qclr => exact ⟨_, _, _, emit_next.mp h, rfl, rfl, rfl⟩
  | qpop =>
    simp only [exec, execQpop] at h
    cases hq : s.p.fifo <;> rw [hq] at h <;> exact ⟨_, _, _, emit_next.mp h, rfl, rfl, rfl⟩
  | frcnt => exact ⟨_, _, _, emit_next.mp h, rfl, rfl, rfl⟩

end Sys2Proof.Machine
end

