-- ==== Sys2Proof/Laws/Filter.lean ====
section
/-! SUPPORT. The acceptance filter as a set: membership, the canonical form, and that the form is unique. -/

namespace Sys2Proof.Machine

theorem midKey_inj {m n : MessageId} (h : midKey m = midKey n) : m = n := by
  obtain ⟨c, i⟩ := m
  obtain ⟨c', i'⟩ := n
  simp only [midKey] at h
  have hi := i.isLt
  have hi' := i'.isLt
  have h1 : c.toNat = c'.toNat := by omega
  have h2 : i.toNat = i'.toNat := by omega
  rw [BitVec.eq_of_toNat_eq h1, BitVec.eq_of_toNat_eq h2]

@[simp] theorem mem_filterInsert (m k : MessageId) (f : List MessageId) :
    k ∈ filterInsert m f ↔ k = m ∨ k ∈ f := by
  induction f with
  | nil => simp [filterInsert]
  | cons x f ih =>
    unfold filterInsert
    split
    · rename_i h; subst h; simp
    · split
      · simp
      · simp [ih]; tauto

/-- R102: membership in the set a list names. -/
@[simp] theorem mem_filterOfList (k : MessageId) (ids : List MessageId) : k ∈ filterOfList ids ↔ k ∈ ids := by
  induction ids with
  | nil => simp [filterOfList]
  | cons m ms ih => simp [filterOfList, ih]

theorem filterInsert_sorted {m : MessageId} {f : List MessageId} (h : f.Pairwise (fun m n => midKey m < midKey n)) :
    (filterInsert m f).Pairwise (fun m n => midKey m < midKey n) := by
  induction f with
  | nil => simp [filterInsert]
  | cons x f ih =>
    have hx := List.pairwise_cons.mp h
    unfold filterInsert
    split
    · exact h
    · rename_i hne
      split
      · rename_i hlt
        refine List.pairwise_cons.mpr ⟨fun n hn => ?_, h⟩
        rcases List.mem_cons.mp hn with rfl | hn
        · exact hlt
        · exact Nat.lt_trans hlt (hx.1 n hn)
      · rename_i hge
        refine List.pairwise_cons.mpr ⟨fun n hn => ?_, ih hx.2⟩
        rcases (mem_filterInsert _ _ _).mp hn with rfl | hn
        · have : midKey n ≠ midKey x := fun e => hne (midKey_inj e)
          omega
        · exact hx.1 n hn

/-- The filter FILTS installs is in the canonical form. -/
theorem filterOfList_sorted (ids : List MessageId) :
    (filterOfList ids).Pairwise (fun m n => midKey m < midKey n) := by
  induction ids with
  | nil => simp [filterOfList]
  | cons m ms ih => exact filterInsert_sorted ih

/-- Two lists in the canonical form with the same members are one list. -/
theorem sorted_ext {f g : List MessageId} (hf : f.Pairwise (fun m n => midKey m < midKey n))
    (hg : g.Pairwise (fun m n => midKey m < midKey n)) (h : ∀ m, m ∈ f ↔ m ∈ g) : f = g := by
  have nd : ∀ {l : List MessageId}, l.Pairwise (fun m n => midKey m < midKey n) → l.Nodup := fun hl =>
    hl.imp fun {a b} hab e => by subst e; omega
  refine List.Perm.eq_of_pairwise (le := fun m n => midKey m < midKey n) ?_ hf hg
    ((List.perm_ext_iff_of_nodup (nd hf) (nd hg)).mpr h)
  intro a b _ _ hab hba
  omega

end Sys2Proof.Machine
end

