-- ==== Sys2Proof/Laws/MessageIds.lean ====
section
/-! SUPPORT. What the equality of MessageIds decides (42_frame_codec.md R76). -/

namespace Sys2Proof.Machine

/-- R76: equality by both fields is equality. -/
@[simp] theorem midEq_iff (m n : MessageId) : midEq m n = true ↔ m = n := by
  cases m
  cases n
  simp [midEq]

/-- R76, R107: the id alone decides whether a packet is the sentinel. -/
@[simp] theorem isSentinel_iff (pkt : Packet) : isSentinel pkt = true ↔ pkt.id = Config.sentinelId := by
  simp [isSentinel]

end Sys2Proof.Machine
end

