-- ==== Sys2Proof/Laws/PerInstr.lean ====
section
/-! SUPPORT. One lemma for each command about its encoding: the first byte is the opcode of its row (R55, R57), and the
length the format gives (R60) is the encoding's length. -/

namespace Sys2Proof.Laws.EncodingForm

open Sys2Proof.Machine

/-- R55, R57, R60, of a well-formed command. -/
def Statement (i : Instr) : Prop :=
  i.wf = true → (encode i).head? = some i.mnemonic.opcode ∧ commandLength (encode i) = (encode i).length

theorem ckrst : Statement .ckrst := fun _ => by decide

theorem ckadd (b : Byte) : Statement (.ckadd b) := fun _ => ⟨rfl, rfl⟩

theorem ckval : Statement .ckval := fun _ => by decide

theorem ckmat (ra rb : Byte) : Statement (.ckmat ra rb) := fun _ => ⟨rfl, rfl⟩

theorem enc (id : MessageId) (payload : List Byte) : Statement (.enc id payload) := fun h => by
  have hl : payload.length ≤ 65535 := of_decide_eq_true h
  refine ⟨rfl, ?_⟩
  have : commandLength (encode (.enc id payload)) = 5 + (len16 (lo8 payload.length) (hi8 payload.length)).toNat := rfl
  rw [this, len16_lo8_hi8 hl]
  simp [encode]
  omega

theorem rxb (b : Byte) : Statement (.rxb b) := fun _ => ⟨rfl, rfl⟩

theorem prst : Statement .prst := fun _ => by decide

theorem filt (id : MessageId) : Statement (.filt id) := fun _ => ⟨rfl, rfl⟩

theorem filts (ids : List MessageId) : Statement (.filts ids) := fun h => by
  have hl : ids.length ≤ 255 := of_decide_eq_true h
  refine ⟨rfl, ?_⟩
  have : commandLength (encode (.filts ids)) = 2 + 2 * (lo8 ids.length).toNat := rfl
  rw [this, lo8_toNat]
  simp [encode]
  omega

theorem qclr : Statement .qclr := fun _ => by decide

theorem qpop : Statement .qpop := fun _ => by decide

theorem frcnt : Statement .frcnt := fun _ => by decide

end Sys2Proof.Laws.EncodingForm
end

