-- ==== Sys2Proof/Tests/Slice0.lean ====
section
/-! SUPPORT. Small tests, their expected results taken from spec/95_test_vectors.md and the examples of the rules, and
the witnesses that the hypotheses of the statements can be met. -/

namespace Sys2Proof.Tests

open Sys2Proof.Machine

/-! ### Helpers -/

/-- The state a step leaves, if it answers one. -/
def next? : Host.Outcome State Fault Refusal → Option State
  | .next s => some s
  | _ => none

/-- The state a fault leaves. -/
def faulted? : Host.Outcome State Fault Refusal → Option State
  | .fault (.fifoOverflow s) => some s
  | _ => none

/-- The refusal of a step. -/
def refused? : Host.Outcome State Fault Refusal → Option Refusal
  | .refused r => some r
  | _ => none

/-- What a decoder answer is, as data that can be compared. -/
def decoded (bs : List Byte) : Option (Instr × List Byte) :=
  match decode bs with
  | .ok r => some r
  | .error _ => none

/-- Reset, with command bytes in the stream. -/
def given (bs : List Byte) : State := { State.reset with commands := bs }

/-- Reset, with an accumulator. -/
def withCk (a b : Byte) : State := { State.reset with ck := ⟨a, b⟩ }

/-- Reset, with a parser. -/
def withP (p : Parser) : State := { State.reset with p := p }

/-- The parser of 95_test_vectors.md 2.4 after `05 01 02 00` of the example frame: in `Data`. -/
def inData : Parser :=
  { Parser.reset with state := .data, ck := ⟨0x08, 0x1B⟩, cls := 0x05, id := 0x01, lenLo := 0x02, len := 2 }

/-- The same after `05 01 02 00 01 02`: in `Crc1`. -/
def inCrc1 : Parser := { inData with state := .crc1, ck := ⟨0x0B, 0x2F⟩, ofs := 2, buf := [(0, 0x01), (1, 0x02)] }

/-- The same after `05 01 02 00 01 02 0B`: in `Crc2`. -/
def inCrc2 : Parser := { inCrc1 with state := .crc2, rxA := 0x0B }

/-- The packet of the example frame. -/
def example05 : Packet := ⟨⟨0x05, 0x01⟩, [0x01, 0x02]⟩

/-- P6: FIFO_DEPTH = 1, one packet queued, in `Crc2`. -/
def fullFifo : State :=
  { State.reset with cfg := { fifoDepth := some 1 }, p := { inCrc2 with fifo := [example05], rxB := 0x2F, frc := 1 } }

/-- A parser state with everything else at reset. -/
def inState (x : ParserState) : State := withP { Parser.reset with state := x }

/-! ### WellFormed refuses what no bytes encode (R58, R63) -/

/-- A payload one byte too long, over any list that has that length. -/
theorem test_wf_refuses_long_payload (p : List Byte) (h : p.length = 65536) : (Instr.enc ⟨0, 0⟩ p).wf = false := by
  simp [Instr.wf, Config.encMax, h]

theorem test_wf_refuses_long_filter (ids : List MessageId) (h : ids.length = 256) : (Instr.filts ids).wf = false := by
  simp [Instr.wf, h]

theorem test_wf_accepts_longest_payload (p : List Byte) (h : p.length = 65535) : (Instr.enc ⟨0, 0⟩ p).wf = true := by
  simp [Instr.wf, Config.encMax, h]

/-- Ill-formed terms: each check refuses one. -/
theorem test_wf_refuses_these : (Instr.enc ⟨0, 0⟩ (List.replicate (2 ^ 16) 0)).wf = false ∧
    (Instr.filts (List.replicate (2 ^ 8) ⟨0, 0⟩)).wf = false :=
  ⟨test_wf_refuses_long_payload _ List.length_replicate, test_wf_refuses_long_filter _ List.length_replicate⟩

/-! ### Decoding: one word for each row of R57, written out from R56 -/

theorem test_decode_ckrst : decoded [0x01, 0x02] = some (.ckrst, [0x02]) := by decide
theorem test_decode_ckadd : decoded [0x02, 0x05] = some (.ckadd 0x05, []) := by decide
theorem test_decode_ckval : decoded [0x03] = some (.ckval, []) := by decide
theorem test_decode_ckmat : decoded [0x04, 0x0B, 0x2F] = some (.ckmat 0x0B 0x2F, []) := by decide
theorem test_decode_enc :
    decoded [0x10, 0x05, 0x01, 0x02, 0x00, 0x06, 0x08, 0x25] = some (.enc ⟨0x05, 0x01⟩ [0x06, 0x08], [0x25]) := by
  decide
theorem test_decode_rxb : decoded [0x20, 0xB5] = some (.rxb 0xB5, []) := by decide
theorem test_decode_prst : decoded [0x21] = some (.prst, []) := by decide
theorem test_decode_filt : decoded [0x22, 0x05, 0x01] = some (.filt ⟨0x05, 0x01⟩, []) := by decide
theorem test_decode_filts :
    decoded [0x23, 0x02, 0x05, 0x01, 0x05, 0x00] = some (.filts [⟨0x05, 0x01⟩, ⟨0x05, 0x00⟩], []) := by decide
theorem test_decode_qclr : decoded [0x24] = some (.qclr, []) := by decide
theorem test_decode_qpop : decoded [0x25] = some (.qpop, []) := by decide
theorem test_decode_frcnt : decoded [0x26] = some (.frcnt, []) := by decide

/-- The payload length of format CE is little-endian: `00 01` is 256, not 1. -/
theorem test_decode_enc_length_little_endian : decoded [0x10, 0x05, 0x01, 0x00, 0x01, 0x06, 0x08] = none := by decide

/-- No two rows of the map share an opcode (R57). -/
theorem test_opcodes_distinct : opcodeMap.Pairwise (fun m n => m.opcode ≠ n.opcode) := by decide

/-! ### 95_test_vectors.md 2.6: refusals -/

theorem test_refuses_00 : refused? (step (given [0x00])) = some (.illegalOpcode 0x00) := by decide
theorem test_refuses_27 : refused? (step (given [0x27])) = some (.illegalOpcode 0x27) := by decide
theorem test_truncated_ckadd : refused? (step (given [0x02])) = some (.truncated 0x02) := by decide
theorem test_truncated_enc :
    refused? (step (given [0x10, 0x05, 0x01, 0x02, 0x00, 0x06])) = some (.truncated 0x10) := by decide
theorem test_truncated_filts : refused? (step (given [0x23, 0x02, 0x05, 0x01, 0x05])) = some (.truncated 0x23) := by
  decide

/-! ### 95_test_vectors.md 2.1: the checksum unit -/

theorem test_ckrst : (next? (exec .ckrst (withCk 0x16 0x3F))).map (·.ck) = some ⟨0x00, 0x00⟩ := by decide
theorem test_ckadd_wraps : (next? (exec (.ckadd 0x01) (withCk 0xFF 0xFF))).map (·.ck) = some ⟨0x00, 0xFF⟩ := by decide
theorem test_ckadd_zero : (next? (exec (.ckadd 0x00) (withCk 0x05 0x05))).map (·.ck) = some ⟨0x05, 0x0A⟩ := by decide
theorem test_ckval : (next? (exec .ckval (withCk 0x0E 0x34))).map (·.responses) = some [[0x0E, 0x34]] := by decide
theorem test_ckmat_match : (next? (exec (.ckmat 0x0B 0x2F) (withCk 0x0B 0x2F))).map (·.responses) = some [[0x01]] := by
  decide
theorem test_ckmat_swapped :
    (next? (exec (.ckmat 0x2F 0x0B) (withCk 0x0B 0x2F))).map (·.responses) = some [[0x00]] := by decide

/-- V-S1: the checksum of the 28 bytes. -/
theorem test_known_vector : feed ⟨0, 0⟩
    [0x13, 0x40, 0x18, 0x00, 0x10, 0x00, 0x00, 0x12, 0xE4, 0x07, 0x09, 0x05, 0x06, 0x28, 0x30, 0x00, 0x40, 0x28, 0xEF,
      0x0C, 0x0A, 0x00, 0x00, 0x00, 0x00, 0x00, 0x00, 0x00] = ⟨0x51, 0xAC⟩ := by decide

/-! ### 95_test_vectors.md 2.3: the encoder -/

theorem test_enc_one_byte : (next? (exec (.enc ⟨0x01, 0x02⟩ [0xAA]) State.reset)).map (·.responses) =
    some [[0xB5, 0x62, 0x01, 0x02, 0x01, 0x00, 0xAA, 0xAE, 0xBA]] := by decide
theorem test_enc_sync_in_payload : (next? (exec (.enc ⟨0x01, 0x02⟩ [0xB5, 0x62]) State.reset)).map (·.responses) =
    some [[0xB5, 0x62, 0x01, 0x02, 0x02, 0x00, 0xB5, 0x62, 0x1C, 0xE4]] := by decide

/-! ### 95_test_vectors.md 2.4: single transitions of the parser -/

/-- One step in each arm before `Crc2`; the lengths 1000 and 1001 stand on the two sides of the guard of `Len2`. -/
theorem test_rxb_arms :
    (next? (exec (.rxb 0xB5) State.reset)).map (·.p.state) = some .sync1 ∧
    (next? (exec (.rxb 0xB5) (inState .sync1))).map (·.p.state) = some .init ∧
    (next? (exec (.rxb 0x05) (inState .cls))).map (fun s => (s.p.cls, s.p.ck, s.p.state)) =
      some (0x05, ⟨0x05, 0x05⟩, .id) ∧
    (next? (exec (.rxb 0x03) (withP { Parser.reset with state := .len2, lenLo := 0xE8 }))).map
      (fun s => (s.p.len, s.p.state)) = some (1000, .data) ∧
    (next? (exec (.rxb 0x03) (withP { Parser.reset with state := .len2, lenLo := 0xE9 }))).map
      (fun s => (s.p.len, s.p.state)) = some (1001, .init) ∧
    (next? (exec (.rxb 0x01) (withP inData))).map (fun s => (s.p.payload, s.p.ofs, s.p.ck, s.p.state)) =
      some ([0x01], 1, ⟨0x09, 0x24⟩, .data) ∧
    (next? (exec (.rxb 0x0B) (withP inCrc1))).map (·.p) = some inCrc2 := by decide

/-- `Crc2`: good and admitted; bad, past the filter; good and rejected, yet counted; the counter wraps (D9). -/
theorem test_rxb_crc2 :
    (next? (exec (.rxb 0x2F) (withP inCrc2))).map (fun s => (s.p.fifo, s.p.frc, s.p.state)) =
      some ([example05], 1, .init) ∧
    (next? (exec (.rxb 0xD0) (withP { inCrc2 with filter := [⟨0x06, 0x08⟩] }))).map
      (fun s => (s.p.fifo, s.p.frc, s.p.state)) = some ([⟨⟨0x00, 0x02⟩, []⟩], 0, .init) ∧
    (next? (exec (.rxb 0x2F) (withP { inCrc2 with filter := [⟨0x06, 0x08⟩] }))).map
      (fun s => (s.p.fifo, s.p.frc)) = some ([], 1) ∧
    (next? (exec (.rxb 0x2F) (withP { inCrc2 with frc := 0xFFFFFFFF }))).map (·.p.frc) = some 0 := by decide

/-! ### P6: the fault -/

theorem test_fifo_overflow : faulted? (exec (.rxb 0x2F) fullFifo) = some { fullFifo with fault := some .fifoOverflow } := by
  decide
theorem test_standing_fault :
    faulted? (step { fullFifo with fault := some .fifoOverflow, commands := [0x00] }) =
      some { fullFifo with fault := some .fifoOverflow, commands := [0x00] } := by decide

/-! ### 95_test_vectors.md 2.5: the control commands -/

theorem test_prst : (next? (exec .prst (withP inData))).map (·.p) = some { inData with state := .init } := by decide
theorem test_filt_replaces :
    (next? (exec (.filt ⟨0x06, 0x08⟩) (withP { Parser.reset with filter := [⟨0x05, 0x01⟩] }))).map (·.p.filter) =
      some [⟨0x06, 0x08⟩] := by decide
theorem test_filts_collapses :
    (next? (exec (.filts [⟨0x05, 0x01⟩, ⟨0x05, 0x00⟩, ⟨0x05, 0x01⟩]) State.reset)).map (·.p.filter) =
      some [⟨0x05, 0x00⟩, ⟨0x05, 0x01⟩] := by decide
/-- Nine MessageIds are too many where they are distinct, and not where two are equal (90_conflicts.md C12). -/
theorem test_filts_capacity :
    refused? (exec (.filts [⟨1, 1⟩, ⟨1, 2⟩, ⟨1, 3⟩, ⟨1, 4⟩, ⟨1, 5⟩, ⟨1, 6⟩, ⟨1, 7⟩, ⟨1, 8⟩, ⟨1, 9⟩]) State.reset) =
      some (.filterOverCapacity 9) ∧
    (next? (exec (.filts [⟨1, 1⟩, ⟨1, 2⟩, ⟨1, 3⟩, ⟨1, 4⟩, ⟨1, 5⟩, ⟨1, 6⟩, ⟨1, 7⟩, ⟨1, 8⟩, ⟨1, 8⟩]) State.reset)).map
      (·.p.filter.length) = some 8 := by decide
theorem test_qclr : (next? (exec .qclr fullFifo)).map (fun s => (s.p.fifo, s.p.frc)) = some ([], 1) := by decide
theorem test_qpop_empty : (next? (exec .qpop State.reset)).map (·.responses) = some [[0x00]] := by decide
theorem test_qpop_packet : (next? (exec .qpop fullFifo)).map (fun s => (s.responses, s.p.fifo)) =
    some ([[0x01, 0x05, 0x01, 0x02, 0x00, 0x01, 0x02]], []) := by decide
theorem test_frcnt : (next? (exec .frcnt (withP { Parser.reset with frc := 0x01020304 }))).map (·.responses) =
    some [[0x04, 0x03, 0x02, 0x01]] := by decide

/-! ### The step and the host's two functions -/

theorem test_step_consumes : (next? (step (given [0x02, 0x05, 0x03]))).map (fun s => (s.ck, s.commands)) =
    some (⟨0x05, 0x05⟩, [0x03]) := by decide
theorem test_step_idle : next? (step State.reset) = some State.reset := by decide
theorem test_step_reset : next? (step { fullFifo with fault := some .fifoOverflow, resetIn := true }) =
    some (State.resetWith fullFifo.cfg) := by decide
theorem test_table_word_enc : decodeTableWord 8 0x10 = some (.enc ⟨0, 0⟩ []) := by decide
theorem test_table_word_illegal : decodeTableWord 8 0x05 = none := by decide
theorem test_fetch_word_runs : (next? (step (State.reset.withFetchWord 8 0x26))).map (fun s => (s.responses, s.commands)) =
    some ([[0x00, 0x00, 0x00, 0x00]], []) := by decide

/-! ### Texts (R64, R78) -/

theorem test_debug_spelling : midDebug ⟨0x0A, 0xB4⟩ =
    ['C', 'I', 'D', ':', ' ', '0', 'x', '0', 'A', ' ', '0', 'x', 'B', '4'] := by decide
theorem test_asm_ckmat : asmText (.ckmat 0x16 0x3F) =
    ['C', 'K', 'M', 'A', 'T', ' ', '0', 'x', '1', '6', ',', ' ', '0', 'x', '3', 'F'] := by decide

/-- R76, R135: the id alone makes a packet the sentinel. -/
theorem test_isSentinel : isSentinel ⟨⟨0x00, 0x02⟩, [0xAA]⟩ = true ∧ isSentinel ⟨⟨0x02, 0x00⟩, []⟩ = false := by decide

/-! ### The hypotheses of the statements can be met -/

/-- The invariant holds in the middle of a frame. -/
theorem witness_inv_inData : (withP inData).Inv where
  cfg := by decide
  data := by decide
  crc := by decide
  header := by decide
  packets := by decide
  cksum := by decide
  length := by decide
  buffer := ⟨by decide, by decide⟩
  filter := by decide
  fifo := by simp [withP, State.reset, State.resetWith]
  counter := by decide

/-- The invariant holds with the FIFO full at finite depth, before the fault. -/
theorem witness_inv_fullFifo : fullFifo.Inv where
  cfg := by decide
  data := by decide
  crc := by decide
  header := by decide
  packets := by decide
  cksum := by decide
  length := by decide
  buffer := ⟨by decide, by decide⟩
  filter := by decide
  fifo := by simp [fullFifo, State.reset, State.resetWith, inCrc2, inCrc1, inData]
  counter := by decide

theorem witness_EveryStepKeepsTheInvariant :
    (withP inData).Inv ∧ (next? (step { withP inData with commands := [0x20, 0x01] })).isSome = true ∧ fullFifo.Inv ∧
      (faulted? (step { fullFifo with commands := [0x20, 0x2F] })).isSome = true :=
  ⟨witness_inv_inData, by decide, witness_inv_fullFifo, by decide⟩

theorem witness_HiddenFieldsAreUnobservable :
    (withP inData).Inv ∧ (withP inData).Alike (withP { inData with lenLo := 0x77, rxA := 0x12, buf := [(7, 0x01)] }) := by
  refine ⟨witness_inv_inData, rfl, rfl, ?_, rfl, rfl, rfl, rfl⟩
  constructor <;> decide

theorem witness_ParserResynchronises_data : (withP inData).Inv ∧ (withP inData).fault = none ∧
    (withP inData).cfg.fifoDepth ≠ some (withP inData).p.fifo.length ∧ (withP inData).p.state ≠ .init ∧
    (List.replicate 1007 (0xB5 : Byte)).length = (if (withP inData).p.state = .cls then 1006 else 1007) :=
  ⟨witness_inv_inData, by decide, by decide, by decide, List.length_replicate⟩

theorem witness_ParserResynchronises_class : (inState .cls).Inv ∧ (inState .cls).fault = none ∧
    (inState .cls).cfg.fifoDepth ≠ some (inState .cls).p.fifo.length ∧ (inState .cls).p.state ≠ .init ∧
    (List.replicate 1006 (0xB5 : Byte)).length = (if (inState .cls).p.state = .cls then 1006 else 1007) := by
  refine ⟨⟨by decide, by decide, by decide, by decide, by decide, by decide, by decide, ⟨by decide, by decide⟩,
    by decide, ?_, by decide⟩, by decide, by decide, by decide, ?_⟩
  · simp [inState, withP, State.reset, State.resetWith]
  · exact List.length_replicate

theorem witness_FeedingInTwoChunks : State.reset.fault = none := rfl

theorem witness_CkvalReadsAccumulator : State.reset.ck = ⟨0, 0⟩ := rfl

theorem witness_CkmatSwapped : (withCk 0x0B 0x2F).ck = ⟨0x0B, 0x2F⟩ ∧ (0x0B : Byte) ≠ 0x2F := by decide

theorem witness_FrameChecksum_lengths : ([] : List Byte).length ≤ 65535 ∧
    (List.replicate 65535 (0 : Byte)).length ≤ 65535 := ⟨by decide, (List.length_replicate).le⟩

theorem witness_ChecksumArithmetic : ([0x80, 0x11, 0x00] : List Byte).length = ([0x00, 0x11, 0x80] : List Byte).length ∧
    0 < ([0x80, 0x11, 0x00] : List Byte).length ∧ 2 < ([0x80, 0x11, 0x00] : List Byte).length := by decide

theorem witness_EncAnswersTheWireFrame : (List.replicate 65535 (0 : Byte)).length ≤ 65535 ∧
    65535 < (List.replicate 65536 (0 : Byte)).length :=
  ⟨(List.length_replicate).le, by rw [List.length_replicate]; decide⟩

theorem witness_FramesAreSelfDelimiting : ([0xAA] : List Byte).length ≤ 65535 ∧
    encodeFrame ⟨1, 2⟩ [0xAA] ++ [0xB5] = encodeFrame ⟨1, 2⟩ [0xAA] ++ [0xB5] := by decide

theorem witness_RxbInInit : State.reset.p.state = .init := rfl

theorem witness_RxbInSync1 : (inState .sync1).p.state = .sync1 := rfl

theorem witness_RxbLatchesTheHeader :
    (inState .cls).p.state = .cls ∧ (inState .id).p.state = .id ∧ (inState .len1).p.state = .len1 ∧
      (0x05 : Byte).toNat = ((inState .cls).p.ck.a.toNat + (0x05 : Byte).toNat) % 256 ∧
      (0x05 : Byte).toNat = ((inState .cls).p.ck.b.toNat + (0x05 : Byte).toNat) % 256 := by decide

/-- Lengths 0, 1, 1000, 1001 and 65535: the boundaries of the three ways on from `Len2`. -/
theorem witness_RxbInLen2 : (inState .len2).p.state = .len2 ∧
    (0 : U16).toNat = (0x00 : Byte).toNat + 256 * (0x00 : Byte).toNat ∧
    (1 : U16).toNat = (0x01 : Byte).toNat + 256 * (0x00 : Byte).toNat ∧
    (1000 : U16).toNat = (0xE8 : Byte).toNat + 256 * (0x03 : Byte).toNat ∧
    (1001 : U16).toNat = (0xE9 : Byte).toNat + 256 * (0x03 : Byte).toNat ∧
    (65535 : U16).toNat = (0xFF : Byte).toNat + 256 * (0xFF : Byte).toNat := by decide

theorem witness_RxbInLen2_step : (inState .len2).p.state = .len2 ∧
    (0x03 : Byte).toNat = ((inState .len2).p.ck.a.toNat + (0x03 : Byte).toNat) % 256 ∧
    (0x03 : Byte).toNat = ((inState .len2).p.ck.b.toNat + (0x03 : Byte).toNat) % 256 ∧
    (0x300 : U16).toNat = (inState .len2).p.lenLo.toNat + 256 * (0x03 : Byte).toNat := by decide

/-- The last byte of a payload of 1000: the offset reaches the length. -/
theorem witness_RxbInData :
    let p : Parser := { inData with len := 1000, ofs := 999, ck := ⟨0, 0⟩ }
    p.state = .data ∧ p.ofs.toNat < p.len.toNat ∧ p.len.toNat ≤ 1000 ∧
      (0x07 : Byte).toNat = (p.ck.a.toNat + (0x07 : Byte).toNat) % 256 ∧
      (0x07 : Byte).toNat = (p.ck.b.toNat + (0x07 : Byte).toNat) % 256 := by decide

theorem witness_RxbInCrc1 : (withP inCrc1).p.state = .crc1 := rfl

/-- Each clause of `Crc2`: good and admitted by the empty filter and by a filter that holds the MessageId, good and
dropped, bad, and full. -/
theorem witness_RxbInCrc2 :
    inCrc2.state = .crc2 ∧ (inCrc2.ck.a = inCrc2.rxA ∧ inCrc2.ck.b = 0x2F) ∧ ¬(inCrc2.ck.b = 0x2E) ∧
      inCrc2.filter = [] ∧ (⟨inCrc2.cls, inCrc2.id⟩ : MessageId) ∈ [(⟨0x05, 0x01⟩ : MessageId)] ∧
      (⟨inCrc2.cls, inCrc2.id⟩ : MessageId) ∉ [(⟨0x06, 0x08⟩ : MessageId)] ∧
      (withP inCrc2).cfg.fifoDepth ≠ some (withP inCrc2).p.fifo.length ∧
      fullFifo.p.state = .crc2 ∧ fullFifo.cfg.fifoDepth = some fullFifo.p.fifo.length := by decide

theorem witness_RxbCompletes : (withP inCrc2).p.state = .crc2 →
    (withP inCrc2).cfg.fifoDepth ≠ some (withP inCrc2).p.fifo.length := by decide

/-- The round trip: admitted by the empty filter, by a filter that holds the MessageId, and rejected. -/
theorem witness_EncodedFramesParseBack :
    State.reset.p.state = .init ∧ State.reset.fault = none ∧ ([0x01, 0x02] : List Byte).length ≤ 1000 ∧
      State.reset.p.filter = [] ∧ State.reset.cfg.fifoDepth ≠ some State.reset.p.fifo.length ∧
      (⟨0x05, 0x01⟩ : MessageId) ∈ [(⟨0x05, 0x01⟩ : MessageId)] ∧
      ¬([(⟨0x06, 0x08⟩ : MessageId)] = [] ∨ (⟨0x05, 0x01⟩ : MessageId) ∈ [(⟨0x06, 0x08⟩ : MessageId)]) := by decide

theorem witness_EncodedFramesParseBack_longest : (List.replicate 1000 (0x55 : Byte)).length ≤ 1000 :=
  (List.length_replicate).le

/-- The rows of R99: length 1001; length 1000; a good checksum and a bad one of the example frame. -/
theorem witness_CandidateFrameOutcomes :
    State.reset.p.state = .init ∧ State.reset.fault = none ∧ State.reset.p.filter = [] ∧
      State.reset.cfg.fifoDepth ≠ some State.reset.p.fifo.length ∧
      ¬([(⟨0x06, 0x08⟩ : MessageId)] = [] ∨ (⟨0x05, 0x01⟩ : MessageId) ∈ [(⟨0x06, 0x08⟩ : MessageId)]) ∧
      1000 < (0xE9 : Byte).toNat + 256 * (0x03 : Byte).toNat ∧ (0xE8 : Byte).toNat + 256 * (0x03 : Byte).toNat ≤ 1000 ∧
      ([0x01, 0x02] : List Byte).length = (0x02 : Byte).toNat + 256 * (0x00 : Byte).toNat ∧
      feed ⟨0, 0⟩ ([0x05, 0x01, 0x02, 0x00] ++ [0x01, 0x02]) = ⟨0x0B, 0x2F⟩ ∧
      feed ⟨0, 0⟩ ([0x05, 0x01, 0x02, 0x00] ++ [0x01, 0x02]) ≠ ⟨0x0B, 0xD0⟩ := by decide

theorem witness_FilterKeepsTheOrder : State.reset.p.state = .init ∧ State.reset.fault = none ∧
    State.reset.cfg.fifoDepth = none ∧ State.reset.p.fifo = [] ∧ State.reset.p.frc < 2 ^ State.reset.cfg.wFrc ∧
    ∀ f ∈ [(⟨⟨0x05, 0x01⟩, [0x06, 0x01]⟩ : Frame), ⟨⟨0x01, 0x07⟩, [0x99]⟩, ⟨⟨0x05, 0x00⟩, [0x06, 0x02]⟩],
      f.payload.length ≤ 1000 := by decide

theorem witness_OversizeEncodedFrames : State.reset.p.state = .init ∧ State.reset.fault = none ∧
    1000 < (List.replicate 1001 (0x55 : Byte)).length ∧
    (List.replicate 1001 (0x55 : Byte)).length ≤ 65535 :=
  ⟨rfl, rfl, by rw [List.length_replicate]; decide, by rw [List.length_replicate]; decide⟩

theorem witness_SentinelIdOnTheWire : State.reset.p.state = .init ∧ State.reset.fault = none ∧
    State.reset.p.filter = [] ∧ State.reset.cfg.fifoDepth ≠ some State.reset.p.fifo.length ∧
    (withP { Parser.reset with fifo := [sentinel] }).p.fifo = sentinel :: [] := by decide

/-- At and over the capacity of 8. -/
theorem witness_FiltsInstallsTheSet : ([] : List MessageId).length ≤ 255 ∧
    [(⟨1, 1⟩ : MessageId), ⟨1, 2⟩, ⟨1, 3⟩, ⟨1, 4⟩, ⟨1, 5⟩, ⟨1, 6⟩, ⟨1, 7⟩, ⟨1, 8⟩].length ≤ State.reset.cfg.filterSlots ∧
    State.reset.cfg.filterSlots <
      [(⟨1, 1⟩ : MessageId), ⟨1, 2⟩, ⟨1, 3⟩, ⟨1, 4⟩, ⟨1, 5⟩, ⟨1, 6⟩, ⟨1, 7⟩, ⟨1, 8⟩, ⟨1, 9⟩].length := by decide

theorem witness_FiltsDiscardsOrder :
    ∀ m, m ∈ [(⟨5, 1⟩ : MessageId), ⟨5, 0⟩] ↔ m ∈ [(⟨5, 0⟩ : MessageId), ⟨5, 1⟩, ⟨5, 0⟩] := by
  intro m
  simp
  tauto

theorem witness_QpopRemoves : State.reset.p.fifo = [] ∧ fullFifo.p.fifo = example05 :: [] := by decide

theorem witness_commands_that_complete :
    (next? (exec (.rxb 0x01) (withP inData))).isSome = true ∧ (next? (exec .qpop fullFifo)).isSome = true ∧
      (next? (exec (.filts [⟨5, 1⟩]) State.reset)).isSome = true ∧ Column.ck ∉ writes .prst ∧
      Column.ck ∉ reads .prst ∧ Column.state ∈ writes .prst ∧ Column.state ∉ reads .prst := by decide

/-- Responses of every length R36 gives: none, one byte, two, four, and a packet's. -/
theorem witness_CommandsMoveFixedAmounts :
    (next? (exec .ckrst State.reset)).map (·.responses) = some [[]] ∧
      ((next? (exec .ckval State.reset)).map fun t => t.responses.map List.length) = some [2] ∧
      ((next? (exec (.ckmat 1 2) State.reset)).map fun t => t.responses.map List.length) = some [1] ∧
      ((next? (exec (.enc ⟨5, 1⟩ [1, 2]) State.reset)).map fun t => t.responses.map List.length) = some [10] ∧
      ((next? (exec .qpop State.reset)).map fun t => t.responses.map List.length) = some [1] ∧
      ((next? (exec .qpop fullFifo)).map fun t => t.responses.map List.length) = some [7] ∧
      ((next? (exec .frcnt State.reset)).map fun t => t.responses.map List.length) = some [4] := by decide

/-- The four ways of the FIFO: as before, one more, the head gone, empty. -/
theorem witness_QueuedPacketsNeverChange :
    (next? (exec .prst fullFifo)).map (·.p.fifo) = some fullFifo.p.fifo ∧
      (withP inCrc2).p.state = .crc2 ∧
      (next? (exec (.rxb 0x2F) (withP inCrc2))).map (·.p.fifo) = some ((withP inCrc2).p.fifo ++ [example05]) ∧
      (next? (exec .qpop fullFifo)).map (·.p.fifo) = some fullFifo.p.fifo.tail ∧
      (next? (exec .qclr fullFifo)).map (·.p.fifo) = some [] := by decide

theorem witness_ResettingCommandsAreIdempotent : Instr.mnemonic .qclr ∈
    [Mnemonic.ckrst, .prst, .qclr, .filt, .filts] ∧ (next? (exec .qclr fullFifo)).isSome = true := by decide

theorem witness_PseudoCommands : 1 ≤ State.reset.cfg.filterSlots ∧ State.reset.fault = none := by decide

theorem witness_UnboundedFifo : State.reset.cfg.fifoDepth = none ∧ State.reset.fault = none := by decide

theorem witness_StandingFault : ({ fullFifo with fault := some .fifoOverflow } : State).fault = some .fifoOverflow ∧
    ({ fullFifo with fault := some .fifoOverflow } : State).resetIn = false := by decide

theorem witness_IllegalOpcodes : (0x05 : Byte) ∉
    ([0x01, 0x02, 0x03, 0x04, 0x10, 0x20, 0x21, 0x22, 0x23, 0x24, 0x25, 0x26] : List Byte) ∧
    (given [0x05]).resetIn = false ∧ (given [0x05]).fault = none ∧ (given [0x05]).commands = 0x05 :: [] := by decide

theorem witness_Truncated : (Instr.ckmat 0x0B 0x2F).wf = true ∧
    encode (.ckmat 0x0B 0x2F) = 0x04 :: [0x0B] ++ [0x2F] ∧ ([0x2F] : List Byte) ≠ [] ∧
    (given [0x04, 0x0B]).resetIn = false ∧ (given [0x04, 0x0B]).fault = none ∧
    (given [0x04, 0x0B]).commands = 0x04 :: [0x0B] := by decide

theorem witness_ResetInput : ({ fullFifo with resetIn := true } : State).resetIn = true := rfl

/-- A good frame, and a bad one in the same state. -/
theorem witness_CounterMoves :
    let s : State := { withP inCrc2 with commands := [0x20, 0x2F] }
    s.resetIn = false ∧ (next? (step s)).map (·.p.frc) = some 1 ∧ s.p.state = .crc2 ∧
      decoded s.commands = some (.rxb 0x2F, []) ∧ s.p.ck.a = s.p.rxA ∧ s.p.ck.b = 0x2F ∧
      decoded [0x20, 0x2E] = some (.rxb 0x2E, []) ∧ s.p.ck.b ≠ 0x2E ∧
      (next? (step { s with commands := [0x20, 0x2E] })).map (·.p.frc) = some 0 := by decide

/-- Two states that differ in everything but the parameters, the parser and the fault; commands of all three units; a
first read that ends in the middle of a frame. -/
theorem witness_ParserStreaming :
    let s := withCk 0x16 0x3F
    let t : State := { State.reset with commands := [0x99], responses := [[0x01]] }
    (∀ i ∈ [Instr.rxb 0xB5, .ckadd 0x05, .enc ⟨5, 1⟩ [], .prst], i.wf = true) ∧ s.cfg = t.cfg ∧ s.p = t.p ∧
      s.fault = none ∧ t.fault = none ∧ s ≠ t ∧ s.resetIn = false ∧ s.commands = [] ∧
      (next? (handOver [0xB5, 0x62, 0x05] s)).map (fun u => (u.p.state, u.commands)) = some (.id, []) ∧
      (faulted? (handOver [0x2F] fullFifo)).map (·.p.state) = some .crc2 := by decide

theorem witness_InvariantHoldsAtReset : (fullFifo.cfg).wf = true := by decide

theorem witness_DecodeOfEncode : (Instr.enc ⟨0x05, 0x01⟩ [0x06, 0x08]).wf = true ∧ (Instr.filts []).wf = true := by
  decide

theorem witness_EncodeOfDecode : decoded [0x23, 0x00, 0x99] = some (.filts [], [0x99]) := by decide

theorem witness_StepRuns : (Instr.ckadd 0x05).wf = true ∧ (given [0x02, 0x05, 0x03]).resetIn = false ∧
    (given [0x02, 0x05, 0x03]).fault = none ∧
    decoded (given [0x02, 0x05, 0x03]).commands = some (.ckadd 0x05, [0x03]) := by decide

theorem witness_CommandStream : (∀ i ∈ [Instr.ckadd 0x05, .ckval], i.wf = true) ∧ State.reset.resetIn = false ∧
    (next? (runCommands [.ckadd 0x05, .ckval] State.reset)).map (·.responses) = some [[], [0x05, 0x05]] := by decide

theorem witness_MessageIds : midEq (midNew 0x05 0x01) ⟨0x05, 0x01⟩ = true ∧ midEq ⟨0x05, 0x01⟩ ⟨0x05, 0x00⟩ = false := by
  decide

end Sys2Proof.Tests
end

section
/-! PROOFS. One step at the head of a command stream that decodes. -/

namespace Sys2Proof.Machine

/-- R60: the next command of the stream is what its bytes decode to. -/
theorem fetch_of_decode {s : State} {i : Instr} {rest : List Byte} (h : decode s.commands = .ok (i, rest)) :
    fetch s = .command i rest := by
  simp [fetch, h]

/-- R114: without RESET the step of a fetched command is the command's own rule behind the standing fault. -/
theorem step_of_fetch_command {s : State} {i : Instr} {rest : List Byte} (hreset : s.resetIn = false)
    (h : fetch s = .command i rest) : step s = unlessFaulted s (consume rest (exec i s)) := by
  simp [step, stepBy, hreset, h]

/-- R114.2, R114.3: with neither RESET nor a standing fault, a step executes the decoded command and consumes its
bytes. -/
theorem step_of_decode {s : State} {i : Instr} {rest : List Byte} (hreset : s.resetIn = false)
    (hfault : s.fault = none) (h : decode s.commands = .ok (i, rest)) : step s = consume rest (exec i s) := by
  rw [step_of_fetch_command hreset (fetch_of_decode h), unlessFaulted_none hfault]

/-- Settles O56, from `step_of_decode`, outcome by outcome of the command. -/
theorem stepRunsTheDecodedCommand : Obligations.StepRunsTheDecodedCommand := by
  intro i s rest _ hreset hfault hdecode
  rw [step_of_decode hreset hfault hdecode]
  cases exec i s with
  | next t => rfl
  | fault f => rfl
  | refused r => rfl

end Sys2Proof.Machine
end

section
/-! PROOFS. What one command can do to the parser, said once: one transition of RXB (R83 to R95), and the parser a
command that answers a next state leaves (R106). -/

namespace Sys2Proof.Machine

/-- The columns of the parser that outlive a frame are the same: filter, FIFO and counter. -/
structure Parser.SameQueues (p q : Parser) : Prop where
  filter : q.filter = p.filter
  fifo : q.fifo = p.fifo
  frc : q.frc = p.frc

section Transition

variable {cfg : Config} {b : Byte} {p q : Parser}

theorem rxInit_state (b : Byte) (p : Parser) : (rxInit b p).state = .init ∨ (rxInit b p).state = .sync1 := by
  unfold rxInit
  split
  · exact .inr rfl
  · exact .inl rfl

@[simp] theorem rxInit_buf (b : Byte) (p : Parser) : (rxInit b p).buf = p.buf := by
  unfold rxInit
  split <;> rfl

theorem rxInit_sameQueues (b : Byte) (p : Parser) : p.SameQueues (rxInit b p) := by
  unfold rxInit
  split <;> exact ⟨rfl, rfl, rfl⟩

/-- R85: SYNC2 starts a frame. -/
theorem rxSync1_sync2 (p : Parser) :
    rxSync1 Config.sync2 p = { p with ck := ⟨0, 0⟩, len := 0, ofs := 0, state := .cls } := if_pos rfl

/-- R85: any byte but SYNC2 leads back to `Init`. -/
theorem rxSync1_other (h : b ≠ Config.sync2) : rxSync1 b p = p.setState .init := if_neg h

theorem rxSync1_sameQueues (b : Byte) (p : Parser) : p.SameQueues (rxSync1 b p) := by
  unfold rxSync1
  split <;> exact ⟨rfl, rfl, rfl⟩

/-- R89: a frame without payload goes on to its checksum. -/
theorem afterLength_zero {len : U16} (h : len.toNat = 0) : afterLength len p = p.setState .crc1 := if_pos h

/-- R90: a length over MAX_LEN is abandoned. -/
theorem afterLength_oversize {len : U16} (h : Config.maxLen < len.toNat) : afterLength len p = p.setState .init := by
  have h0 : len.toNat ≠ 0 := by omega
  simp [afterLength, h0, h, Parser.setState]

/-- R89: a legal length starts the payload at offset 0. -/
theorem afterLength_payload {len : U16} (h0 : len.toNat ≠ 0) (h : len.toNat ≤ Config.maxLen) :
    afterLength len p = { p with ofs := 0, state := .data } := by
  simp [afterLength, h0, Nat.not_lt.mpr h]

theorem rxLen2_sameQueues (b : Byte) (p : Parser) : p.SameQueues (rxLen2 b p) := by
  unfold rxLen2 afterLength
  split
  · exact ⟨rfl, rfl, rfl⟩
  · split <;> exact ⟨rfl, rfl, rfl⟩

/-- A transition has one answer. -/
theorem rxStep_ok_unique {q' : Parser} (h' : rxStep cfg b p = .ok q') (h : rxStep cfg b p = .ok q) : q' = q :=
  Except.ok.inj (h'.symm.trans h)

/-- R106, R94: before the last byte of a frame a transition leaves the filter, the FIFO and the counter alone. -/
theorem rxStep_sameQueues (hs : p.state ≠ .crc2) (h : rxStep cfg b p = .ok q) : p.SameQueues q := by
  cases hp : p.state with
  | init => exact rxStep_ok_unique (rxStep_init hp) h ▸ rxInit_sameQueues b p
  | sync1 => exact rxStep_ok_unique (rxStep_sync1 hp) h ▸ rxSync1_sameQueues b p
  | cls => exact rxStep_ok_unique (rxStep_cls hp) h ▸ ⟨rfl, rfl, rfl⟩
  | id => exact rxStep_ok_unique (rxStep_id hp) h ▸ ⟨rfl, rfl, rfl⟩
  | len1 => exact rxStep_ok_unique (rxStep_len1 hp) h ▸ ⟨rfl, rfl, rfl⟩
  | len2 => exact rxStep_ok_unique (rxStep_len2 hp) h ▸ rxLen2_sameQueues b p
  | data => exact rxStep_ok_unique (rxStep_data hp) h ▸ ⟨rfl, rfl, rfl⟩
  | crc1 => exact rxStep_ok_unique (rxStep_crc1 hp) h ▸ ⟨rfl, rfl, rfl⟩
  | crc2 => exact absurd hp hs

/-- R94, R95: the three ways the last byte of a frame can succeed: a good frame counted and queued, a good frame counted
and dropped by the filter, a bad one answered by the sentinel. -/
theorem rxCrc2_ok (h : rxCrc2 cfg b p = .ok q) :
    ((p.ck.a = p.rxA ∧ p.ck.b = b) ∧ (p.filter = [] ∨ ⟨p.cls, p.id⟩ ∈ p.filter) ∧
      cfg.fifoDepth ≠ some p.fifo.length ∧
      q = { p with rxB := b, frc := (p.frc + 1) % 2 ^ cfg.wFrc,
                   fifo := p.fifo ++ [⟨⟨p.cls, p.id⟩, p.payload⟩], state := .init }) ∨
    ((p.ck.a = p.rxA ∧ p.ck.b = b) ∧ ¬(p.filter = [] ∨ ⟨p.cls, p.id⟩ ∈ p.filter) ∧
      q = { p with rxB := b, frc := (p.frc + 1) % 2 ^ cfg.wFrc, state := .init }) ∨
    (¬(p.ck.a = p.rxA ∧ p.ck.b = b) ∧ cfg.fifoDepth ≠ some p.fifo.length ∧
      q = { p with rxB := b, fifo := p.fifo ++ [⟨⟨0x00, 0x02⟩, []⟩], state := .init }) := by
  by_cases hm : p.ck.a = p.rxA ∧ p.ck.b = b
  · by_cases ha : p.filter = [] ∨ ⟨p.cls, p.id⟩ ∈ p.filter
    · by_cases hq : cfg.fifoDepth = some p.fifo.length
      · rw [rxCrc2_full hq (.inr ha)] at h
        cases h
      · rw [rxCrc2_admitted hm ha hq] at h
        cases h
        exact .inl ⟨hm, ha, hq, rfl⟩
    · rw [rxCrc2_dropped hm ha] at h
      cases h
      exact .inr (.inl ⟨hm, ha, rfl⟩)
  · by_cases hq : cfg.fifoDepth = some p.fifo.length
    · rw [rxCrc2_full hq (.inl hm)] at h
      cases h
    · rw [rxCrc2_mismatch hm hq] at h
      cases h
      exact .inr (.inr ⟨hm, hq, rfl⟩)

end Transition

/-- R106: what a command that completes in the state `s` can leave as the parser. -/
inductive ParserEffect (s : State) : Instr → Parser → Prop where
  /-- The commands of the other units, FRCNT, and QPOP on an empty FIFO. -/
  | untouched {i : Instr} (h : ∀ b, i ≠ .rxb b) : ParserEffect s i s.p
  /-- R83 -/
  | received {b : Byte} {q : Parser} (h : rxStep s.cfg b s.p = .ok q) : ParserEffect s (.rxb b) q
  /-- R100 -/
  | restarted : ParserEffect s .prst (s.p.setState .init)
  /-- R101 -/
  | oneMember (id : MessageId) : ParserEffect s (.filt id) (s.p.setFilter [id])
  /-- R102 -/
  | members {ids : List MessageId} (h : (filterOfList ids).length ≤ s.cfg.filterSlots) :
      ParserEffect s (.filts ids) (s.p.setFilter (filterOfList ids))
  /-- R103 -/
  | cleared : ParserEffect s .qclr (s.p.setFifo [])
  /-- R104 -/
  | popped {pkt : Packet} {q : List Packet} (h : s.p.fifo = pkt :: q) : ParserEffect s .qpop (s.p.setFifo q)

/-- R106: `ParserEffect` is everything a command does to the parser. -/
theorem exec_parserEffect {i : Instr} {s t : State} (h : exec i s = .next t) : ParserEffect s i t.p := by
  obtain ⟨x, p, r, rfl, heffect⟩ := exec_next h
  show ParserEffect s i p
  cases i with
  | rxb b => exact .received heffect.2.1
  | prst => exact heffect.2.1 ▸ .restarted
  | filt id => exact heffect.2.1 ▸ .oneMember id
  | filts ids => exact heffect.2.1 ▸ .members heffect.2.2.2
  | qclr => exact heffect.2.1 ▸ .cleared
  | qpop =>
    cases hq : s.p.fifo with
    | nil =>
      simp only [hq] at heffect
      exact heffect.2.1 ▸ .untouched (by simp)
    | cons pkt q =>
      simp only [hq] at heffect
      exact heffect.2.1 ▸ .popped hq
  | ckrst | ckadd | ckval | ckmat | enc | frcnt => exact heffect.2.1 ▸ .untouched (by simp)

/-- No command writes the parameters (log entry 3). -/
theorem exec_cfg {i : Instr} {s t : State} (h : exec i s = .next t) : t.cfg = s.cfg := by
  obtain ⟨x, p, r, rfl, -⟩ := exec_next h
  rfl

/-- R116: a command that faults leaves the state as it was, but for the fault. -/
theorem exec_fault {i : Instr} {s : State} {f : Fault} (h : exec i s = .fault f) :
    f = .fifoOverflow (s.setFault .fifoOverflow) := by
  cases i with
  | rxb b => exact (execRxb_fault.mp h).2
  | enc id payload =>
    simp only [exec, execEnc] at h
    split at h <;> cases h
  | filts ids =>
    simp only [exec, execFilts] at h
    split at h <;> cases h
  | qpop =>
    simp only [exec, execQpop] at h
    split at h <;> cases h
  | ckrst | ckadd | ckval | ckmat | prst | filt | qclr | frcnt => cases h

/-- R114.1, R116: a step that faults leaves the state as it was, but for the fault. -/
theorem step_fault {s t : State} (h : step s = .fault (.fifoOverflow t)) :
    t = s ∨ t = s.setFault .fifoOverflow := by
  unfold step stepBy at h
  cases hf : s.fault with
  | some r =>
    simp only [unlessFaulted_some hf] at h
    left
    split at h
    · cases h
    · split at h <;> cases h <;> rfl
  | none =>
    simp only [unlessFaulted_none hf] at h
    right
    split at h
    · cases h
    · split at h
      · cases h
      · cases h
      · rename_i i rest _
        cases hx : exec i s with
        | next u => rw [hx] at h; cases h
        | refused r => rw [hx] at h; cases h
        | fault f =>
          rw [hx, exec_fault hx] at h
          cases h
          rfl

end Sys2Proof.Machine
end

section
/-! PROOFS. The family of the state: what FILTS, the FIFO and the counter do (R22 to R24). -/

namespace Sys2Proof.Machine

/-- R102: a list of MessageIds is taken as the set of its members. -/
theorem filterOfList_congr {ids ids' : List MessageId} (h : ∀ m, m ∈ ids ↔ m ∈ ids') :
    filterOfList ids = filterOfList ids' :=
  sorted_ext (filterOfList_sorted ids) (filterOfList_sorted ids') fun m => by simpa using h m

/-- Settles O31: the canonical form FILTS installs depends on the members alone. -/
theorem filtsDiscardsOrderAndRepeats : Obligations.FiltsDiscardsOrderAndRepeats := by
  intro ids ids' s h
  simp only [exec, execFilts, filterOfList_congr h]

/-- R23, R94: a transition leaves the FIFO as it was, or in `Crc2` with one more packet at its tail. -/
theorem rxStep_fifo {cfg : Config} {b : Byte} {p q : Parser} (h : rxStep cfg b p = .ok q) :
    q.fifo = p.fifo ∨ p.state = .crc2 ∧ ∃ pkt, q.fifo = p.fifo ++ [pkt] := by
  by_cases hs : p.state = .crc2
  · rw [rxStep_crc2 hs] at h
    obtain ⟨-, -, -, rfl⟩ | ⟨-, -, rfl⟩ | ⟨-, -, rfl⟩ := rxCrc2_ok h
    · exact .inr ⟨hs, _, rfl⟩
    · exact .inl rfl
    · exact .inr ⟨hs, _, rfl⟩
  · exact .inl (rxStep_sameQueues hs h).fifo

/-- Settles O38, by the effects a command can have on the parser. -/
theorem queuedPacketsNeverChange : Obligations.QueuedPacketsNeverChange := by
  intro i s t h
  have heffect := exec_parserEffect h
  generalize t.p = p at heffect ⊢
  cases heffect with
  | untouched hi => exact .inl rfl
  | received hrx =>
    obtain hsame | ⟨hs, pkt, hpush⟩ := rxStep_fifo hrx
    · exact .inl hsame
    · exact .inr (.inl ⟨_, pkt, rfl, hs, hpush⟩)
  | restarted => exact .inl rfl
  | oneMember id => exact .inl rfl
  | members hslots => exact .inl rfl
  | cleared => exact .inr (.inr (.inr ⟨rfl, rfl⟩))
  | popped hq => exact .inr (.inr (.inl ⟨_, rfl, hq⟩))

/-- R24, R94: a transition counts one where it is the last byte of a frame and finds the checksum equal, and leaves the
counter as it was otherwise. -/
theorem rxStep_frc {cfg : Config} {b : Byte} {p q : Parser} (h : rxStep cfg b p = .ok q) :
    q.frc = if p.state = .crc2 ∧ p.ck.a = p.rxA ∧ p.ck.b = b then (p.frc + 1) % 2 ^ cfg.wFrc else p.frc := by
  by_cases hs : p.state = .crc2
  · rw [rxStep_crc2 hs] at h
    obtain ⟨hm, -, -, rfl⟩ | ⟨hm, -, rfl⟩ | ⟨hm, -, rfl⟩ := rxCrc2_ok h <;> simp [hs, hm]
  · simp [hs, (rxStep_sameQueues hs h).frc]

/-- R94: the command is the last byte of a frame and finds its checksum equal. -/
def EndsGoodFrame (i : Instr) (s : State) : Prop :=
  ∃ b, i = .rxb b ∧ s.p.state = .crc2 ∧ s.p.ck.a = s.p.rxA ∧ s.p.ck.b = b

theorem not_endsGoodFrame {i : Instr} {s : State} (h : ∀ b, i ≠ .rxb b) : ¬EndsGoodFrame i s :=
  fun ⟨b, hi, _⟩ => h b hi

/-- R24, R94, R106: a command that completes counts one where it ends a good frame, and leaves the counter as it was
otherwise. -/
theorem exec_frc {i : Instr} {s t : State} (h : exec i s = .next t) :
    (EndsGoodFrame i s → t.p.frc = (s.p.frc + 1) % 2 ^ s.cfg.wFrc) ∧
    (¬EndsGoodFrame i s → t.p.frc = s.p.frc) := by
  have heffect := exec_parserEffect h
  generalize t.p = p at heffect ⊢
  cases heffect with
  | received hrx =>
    rw [rxStep_frc hrx]
    constructor
    · rintro ⟨_, ⟨⟩, hgood⟩
      exact if_pos hgood
    · intro hbad
      exact if_neg fun hgood => hbad ⟨_, rfl, hgood⟩
  | untouched hi => exact ⟨fun hgood => absurd hgood (not_endsGoodFrame hi), fun _ => rfl⟩
  | restarted | oneMember | members | cleared | popped =>
    exact ⟨fun hgood => absurd hgood (not_endsGoodFrame (by simp)), fun _ => rfl⟩

theorem endsGoodFrame_iff_of_decode {i : Instr} {s : State} {rest : List Byte}
    (h : decode s.commands = .ok (i, rest)) :
    (s.p.state = .crc2 ∧ ∃ b rest, decode s.commands = .ok (.rxb b, rest) ∧ s.p.ck.a = s.p.rxA ∧ s.p.ck.b = b) ↔
      EndsGoodFrame i s := by
  simp only [h]
  constructor
  · rintro ⟨hs, b, _, ⟨⟩, hck⟩
    exact ⟨b, rfl, hs, hck⟩
  · rintro ⟨b, rfl, hs, hck⟩
    exact ⟨hs, b, rest, rfl, hck⟩

/-- Settles O49: without RESET a step is idle or one command, and `exec_frc` says what a command does to the counter. -/
theorem counterMovesOnGoodFramesOnly : Obligations.CounterMovesOnGoodFramesOnly := by
  intro s t hreset hstep
  obtain ⟨hr, -⟩ | ⟨-, -, hidle, rfl⟩ | ⟨-, -, i, rest, u, hdecode, hexec, rfl⟩ := step_next hstep
  · simp [hreset] at hr
  · simp [hidle]
  · simpa only [endsGoodFrame_iff_of_decode hdecode, State.setCommands_p] using exec_frc hexec

end Sys2Proof.Machine
end

section
/-! PROOFS. The invariants of R30: they hold after RESET, and every step keeps them. -/

namespace Sys2Proof.Machine

/-- R71: feeding two chunks is feeding their concatenation. -/
theorem feed_append (x : Cksum) (d e : List Byte) : feed x (d ++ e) = feed (feed x d) e := by
  induction d generalizing x with
  | nil => rfl
  | cons v d ih => exact ih (addByte x v)

/-- R68, R71: one more byte. -/
theorem addByte_of_feed {x y : Cksum} {d : List Byte} (h : y = feed x d) (b : Byte) :
    addByte y b = feed x (d ++ [b]) := by
  rw [feed_append, h]
  rfl

/-- The part of R30's invariants that is about the frame in progress. -/
structure Parser.FrameInv (p : Parser) : Prop where
  data : p.state = .data → 1 ≤ p.len.toNat ∧ p.len.toNat ≤ Config.maxLen ∧ p.ofs.toNat < p.len.toNat
  crc : p.state = .crc1 ∨ p.state = .crc2 → p.ofs = p.len ∧ p.len.toNat ≤ Config.maxLen
  header : p.state = .cls ∨ p.state = .id ∨ p.state = .len1 ∨ p.state = .len2 → p.ofs = 0
  cksum : p.state ≠ .init → p.state ≠ .sync1 → p.ck = feed ⟨0, 0⟩ p.consumed
  length : p.state = .data ∨ p.state = .crc1 ∨ p.state = .crc2 → p.len = len16 p.lenLo p.lenHi
  buffer : p.buf.wf

section FrameInv

variable {cfg : Config} {b : Byte} {p q : Parser}

/-- Outside a frame nothing but the form of the buffer is demanded. -/
theorem Parser.FrameInv.of_idle (hs : p.state = .init ∨ p.state = .sync1) (hbuf : p.buf.wf) : p.FrameInv := by
  rcases hs with hs | hs <;>
    exact ⟨by simp [hs], by simp [hs], by simp [hs], by simp [hs], by simp [hs], hbuf⟩

/-- What is demanded in the header states. -/
theorem Parser.FrameInv.of_header (hs : p.state = .cls ∨ p.state = .id ∨ p.state = .len1 ∨ p.state = .len2)
    (hofs : p.ofs = 0) (hck : p.ck = feed ⟨0, 0⟩ p.consumed) (hbuf : p.buf.wf) : p.FrameInv := by
  rcases hs with hs | hs | hs | hs <;>
    exact ⟨by simp [hs], by simp [hs], fun _ => hofs, fun _ _ => hck, by simp [hs], hbuf⟩

/-- What is demanded in `Data`. -/
theorem Parser.FrameInv.of_data (hs : p.state = .data)
    (hlen : p.len.toNat ≤ Config.maxLen) (hofs : p.ofs.toNat < p.len.toNat)
    (hck : p.ck = feed ⟨0, 0⟩ p.consumed) (hlatch : p.len = len16 p.lenLo p.lenHi) (hbuf : p.buf.wf) :
    p.FrameInv where
  data _ := ⟨by omega, hlen, hofs⟩
  crc h := by simp [hs] at h
  header h := by simp [hs] at h
  cksum _ _ := hck
  length _ := hlatch
  buffer := hbuf

/-- What is demanded in `Crc1` and `Crc2`. -/
theorem Parser.FrameInv.of_crc (hs : p.state = .crc1 ∨ p.state = .crc2)
    (hofs : p.ofs = p.len) (hlen : p.len.toNat ≤ Config.maxLen)
    (hck : p.ck = feed ⟨0, 0⟩ p.consumed) (hlatch : p.len = len16 p.lenLo p.lenHi) (hbuf : p.buf.wf) :
    p.FrameInv where
  data h := by simp [h] at hs
  crc _ := ⟨hofs, hlen⟩
  header h := by rcases hs with hs | hs <;> simp [hs] at h
  cksum _ _ := hck
  length _ := hlatch
  buffer := hbuf

theorem rxInit_frameInv (h : p.FrameInv) : (rxInit b p).FrameInv :=
  .of_idle (rxInit_state b p) (by simpa using h.buffer)

theorem rxSync1_frameInv (h : p.FrameInv) : (rxSync1 b p).FrameInv := by
  by_cases hb : b = Config.sync2
  · rw [hb, rxSync1_sync2]
    exact .of_header (.inl rfl) rfl rfl h.buffer
  · rw [rxSync1_other hb]
    exact .of_idle (.inl rfl) h.buffer

theorem rxClass_frameInv (hs : p.state = .cls) (h : p.FrameInv) : (rxClass b p).FrameInv := by
  have hck : p.ck = feed ⟨0, 0⟩ [] := by simpa [hs, Parser.consumed] using h.cksum
  exact .of_header (.inr (.inl rfl)) (h.header (.inl hs)) (addByte_of_feed hck b) h.buffer

theorem rxId_frameInv (hs : p.state = .id) (h : p.FrameInv) : (rxId b p).FrameInv := by
  have hck : p.ck = feed ⟨0, 0⟩ [p.cls] := by simpa [hs, Parser.consumed] using h.cksum
  exact .of_header (.inr (.inr (.inl rfl))) (h.header (.inr (.inl hs))) (addByte_of_feed hck b) h.buffer

theorem rxLen1_frameInv (hs : p.state = .len1) (h : p.FrameInv) : (rxLen1 b p).FrameInv := by
  have hck : p.ck = feed ⟨0, 0⟩ [p.cls, p.id] := by simpa [hs, Parser.consumed] using h.cksum
  exact .of_header (.inr (.inr (.inr rfl))) (h.header (.inr (.inr (.inl hs)))) (addByte_of_feed hck b) h.buffer

/-- R89, R90: where a frame goes on from `Len2`, the offset is 0, so that nothing of the buffer is consumed yet. -/
theorem rxLen2_frameInv (hs : p.state = .len2) (h : p.FrameInv) : (rxLen2 b p).FrameInv := by
  have hofs : p.ofs = 0 := h.header (.inr (.inr (.inr hs)))
  have hck : p.ck = feed ⟨0, 0⟩ [p.cls, p.id, p.lenLo] := by simpa [hs, Parser.consumed] using h.cksum
  have hck' : addByte p.ck b = feed ⟨0, 0⟩ ([p.cls, p.id, p.lenLo, b] ++ []) := addByte_of_feed hck b
  unfold rxLen2
  by_cases h0 : (len16 p.lenLo b).toNat = 0
  · rw [afterLength_zero h0]
    have hlen : len16 p.lenLo b = 0 := BitVec.eq_of_toNat_eq h0
    refine .of_crc (.inl rfl) (hofs.trans hlen.symm) (h0.trans_le (Nat.zero_le _)) ?_ rfl h.buffer
    simpa [Parser.consumed, Parser.payload, hofs] using hck'
  · by_cases hmax : Config.maxLen < (len16 p.lenLo b).toNat
    · rw [afterLength_oversize hmax]
      exact .of_idle (.inl rfl) h.buffer
    · rw [afterLength_payload h0 (Nat.not_lt.mp hmax)]
      exact .of_data rfl (Nat.not_lt.mp hmax) (Nat.pos_of_ne_zero h0) hck' rfl h.buffer

/-- R91, R92: the byte joins the payload and the accumulator; the offset stays below the length or reaches it. -/
theorem rxData_frameInv (hs : p.state = .data) (h : p.FrameInv) : (rxData b p).FrameInv := by
  obtain ⟨-, hlen, hlt⟩ := h.data hs
  have hofs : (rxData b p).ofs.toNat = p.ofs.toNat + 1 := rxData_ofs (by omega)
  have hck : p.ck = feed ⟨0, 0⟩ ([p.cls, p.id, p.lenLo, p.lenHi] ++ p.payload) := by
    simpa [hs, Parser.consumed] using h.cksum
  have hck' : (rxData b p).ck = feed ⟨0, 0⟩ ([p.cls, p.id, p.lenLo, p.lenHi] ++ (rxData b p).payload) := by
    rw [rxData_payload (by omega), ← List.append_assoc]
    exact addByte_of_feed hck b
  have hlatch : p.len = len16 p.lenLo p.lenHi := h.length (.inl hs)
  have hbuf : (rxData b p).buf.wf := bufWrite_wf h.buffer _ _
  by_cases hend : (rxData b p).ofs = p.len
  · have hs' : (rxData b p).state = .crc1 := if_pos hend
    exact .of_crc (.inl hs') hend hlen (by simp only [Parser.consumed, hs']; exact hck') hlatch hbuf
  · have hs' : (rxData b p).state = .data := if_neg hend
    have hne : (rxData b p).ofs.toNat ≠ p.len.toNat := fun e => hend (BitVec.eq_of_toNat_eq e)
    have hlt' : (rxData b p).ofs.toNat < p.len.toNat := by omega
    exact .of_data hs' hlen hlt' (by simp only [Parser.consumed, hs']; exact hck') hlatch hbuf

theorem rxCrc1_frameInv (hs : p.state = .crc1) (h : p.FrameInv) : (rxCrc1 b p).FrameInv := by
  obtain ⟨hofs, hlen⟩ := h.crc (.inl hs)
  have hck : p.ck = feed ⟨0, 0⟩ ([p.cls, p.id, p.lenLo, p.lenHi] ++ p.payload) := by
    simpa [hs, Parser.consumed] using h.cksum
  exact .of_crc (.inr rfl) hofs hlen hck (h.length (.inr (.inl hs))) h.buffer

theorem rxCrc2_frameInv (h : p.FrameInv) (hrx : rxCrc2 cfg b p = .ok q) : q.FrameInv := by
  obtain ⟨-, -, -, rfl⟩ | ⟨-, -, rfl⟩ | ⟨-, -, rfl⟩ := rxCrc2_ok hrx <;> exact .of_idle (.inl rfl) h.buffer

/-- R30: every transition keeps the invariants of the frame. -/
theorem rxStep_frameInv (h : p.FrameInv) (hrx : rxStep cfg b p = .ok q) : q.FrameInv := by
  cases hs : p.state with
  | init => exact rxStep_ok_unique (rxStep_init hs) hrx ▸ rxInit_frameInv h
  | sync1 => exact rxStep_ok_unique (rxStep_sync1 hs) hrx ▸ rxSync1_frameInv h
  | cls => exact rxStep_ok_unique (rxStep_cls hs) hrx ▸ rxClass_frameInv hs h
  | id => exact rxStep_ok_unique (rxStep_id hs) hrx ▸ rxId_frameInv hs h
  | len1 => exact rxStep_ok_unique (rxStep_len1 hs) hrx ▸ rxLen1_frameInv hs h
  | len2 => exact rxStep_ok_unique (rxStep_len2 hs) hrx ▸ rxLen2_frameInv hs h
  | data => exact rxStep_ok_unique (rxStep_data hs) hrx ▸ rxData_frameInv hs h
  | crc1 => exact rxStep_ok_unique (rxStep_crc1 hs) hrx ▸ rxCrc1_frameInv hs h
  | crc2 => exact rxCrc2_frameInv h (rxStep_crc2 hs ▸ hrx)

end FrameInv

/-- R6: the legal range of FILTER_SLOTS. -/
theorem Config.two_le_filterSlots {c : Config} (h : c.wf = true) : 2 ≤ c.filterSlots := by
  simp only [Config.wf, Bool.and_eq_true, decide_eq_true_eq] at h
  exact h.1.1.2

section StateInv

variable {s t : State}

theorem State.Inv.frame (h : s.Inv) : s.p.FrameInv :=
  ⟨h.data, h.crc, h.header, h.cksum, h.length, h.buffer⟩

/-- The invariants from their part about the frame and their part about what outlives it. -/
theorem State.Inv.of_frame (hcfg : s.cfg.wf = true) (hframe : s.p.FrameInv)
    (hpackets : ∀ pkt ∈ s.p.fifo, pkt.payload.length ≤ Config.maxLen)
    (hfilter : s.p.filter.Pairwise (fun m n => midKey m < midKey n) ∧ s.p.filter.length ≤ s.cfg.filterSlots)
    (hfifo : ∀ d, s.cfg.fifoDepth = some d → s.p.fifo.length ≤ d) (hcounter : s.p.frc < 2 ^ s.cfg.wFrc) : s.Inv :=
  ⟨hcfg, hframe.data, hframe.crc, hframe.header, hpackets, hframe.cksum, hframe.length, hframe.buffer, hfilter, hfifo,
    hcounter⟩

/-- The invariants are about the parameters and the parser alone. -/
theorem State.Inv.congr (h : s.Inv) (hcfg : t.cfg = s.cfg) (hp : t.p = s.p) : t.Inv := by
  obtain ⟨c, ck, p, fault, commands, responses, resetIn⟩ := t
  obtain rfl : c = s.cfg := hcfg
  obtain rfl : p = s.p := hp
  exact ⟨h.cfg, h.data, h.crc, h.header, h.packets, h.cksum, h.length, h.buffer, h.filter, h.fifo, h.counter⟩

/-- R100: PRST keeps the invariants. -/
theorem State.Inv.setState_init (h : s.Inv) : (s.setP (s.p.setState .init)).Inv :=
  .of_frame h.cfg (.of_idle (.inl rfl) h.buffer) h.packets h.filter h.fifo h.counter

/-- R101, R102: another filter in the canonical form keeps the invariants. -/
theorem State.Inv.setFilter (h : s.Inv) {f : List MessageId} (hsorted : f.Pairwise (fun m n => midKey m < midKey n))
    (hslots : f.length ≤ s.cfg.filterSlots) : (s.setP (s.p.setFilter f)).Inv :=
  .of_frame h.cfg ⟨h.data, h.crc, h.header, h.cksum, h.length, h.buffer⟩ h.packets ⟨hsorted, hslots⟩ h.fifo h.counter

/-- R103, R104: a FIFO with packets of the old one, and no more of them, keeps the invariants. -/
theorem State.Inv.setFifo (h : s.Inv) {q : List Packet} (hsub : q <:+ s.p.fifo) : (s.setP (s.p.setFifo q)).Inv :=
  .of_frame h.cfg ⟨h.data, h.crc, h.header, h.cksum, h.length, h.buffer⟩ (fun pkt hpkt => h.packets pkt (hsub.subset hpkt))
    h.filter (fun d hd => hsub.length_le.trans (h.fifo d hd)) h.counter

/-- R30: in `Crc2` the payload to be queued fits the buffer. -/
theorem State.Inv.payload_length_le (h : s.Inv) (hs : s.p.state = .crc2) : s.p.payload.length ≤ Config.maxLen := by
  obtain ⟨hofs, hlen⟩ := h.crc (.inr hs)
  simpa [Parser.payload, hofs] using hlen

/-- R95: the FIFO with room for a packet takes one more that fits the buffer. -/
theorem State.Inv.fifo_push (h : s.Inv) (hroom : s.cfg.fifoDepth ≠ some s.p.fifo.length) {pkt : Packet}
    (hpkt : pkt.payload.length ≤ Config.maxLen) :
    (∀ x ∈ s.p.fifo ++ [pkt], x.payload.length ≤ Config.maxLen) ∧
      ∀ d, s.cfg.fifoDepth = some d → (s.p.fifo ++ [pkt]).length ≤ d := by
  constructor
  · simpa [or_imp, forall_and, hpkt] using h.packets
  · intro d hd
    have hle := h.fifo d hd
    have hne : d ≠ s.p.fifo.length := fun e => hroom (e ▸ hd)
    simp only [List.length_append, List.length_singleton]
    omega

/-- R30: RXB keeps the invariants. -/
theorem rxStep_keeps_inv (h : s.Inv) {b : Byte} {q : Parser} (hrx : rxStep s.cfg b s.p = .ok q) : (s.setP q).Inv := by
  have hframe : q.FrameInv := rxStep_frameInv h.frame hrx
  by_cases hs : s.p.state = .crc2
  · rw [rxStep_crc2 hs] at hrx
    have hcount : (s.p.frc + 1) % 2 ^ s.cfg.wFrc < 2 ^ s.cfg.wFrc := Nat.mod_lt _ (Nat.two_pow_pos _)
    obtain ⟨-, -, hroom, rfl⟩ | ⟨-, -, rfl⟩ | ⟨-, hroom, rfl⟩ := rxCrc2_ok hrx
    · obtain ⟨hpackets, hfifo⟩ := h.fifo_push hroom (pkt := ⟨⟨s.p.cls, s.p.id⟩, _⟩) (h.payload_length_le hs)
      exact .of_frame h.cfg hframe hpackets h.filter hfifo hcount
    · exact .of_frame h.cfg hframe h.packets h.filter h.fifo hcount
    · obtain ⟨hpackets, hfifo⟩ := h.fifo_push hroom (pkt := ⟨⟨0x00, 0x02⟩, []⟩) (Nat.zero_le _)
      exact .of_frame h.cfg hframe hpackets h.filter hfifo h.counter
  · obtain ⟨hfilter, hfifo, hfrc⟩ := rxStep_sameQueues hs hrx
    exact .of_frame h.cfg hframe (by simpa [hfifo] using h.packets) (by simpa [hfilter] using h.filter)
      (by simpa [hfifo] using h.fifo) (by simpa [hfrc] using h.counter)

/-- R30: a command that completes keeps the invariants, by its effect on the parser. -/
theorem exec_keeps_inv (h : s.Inv) {i : Instr} (hexec : exec i s = .next t) : t.Inv := by
  have hcfg : t.cfg = s.cfg := exec_cfg hexec
  suffices (s.setP t.p).Inv from this.congr hcfg rfl
  have heffect := exec_parserEffect hexec
  generalize t.p = p at heffect ⊢
  cases heffect with
  | untouched hi => exact h.congr rfl rfl
  | received hrx => exact rxStep_keeps_inv h hrx
  | restarted => exact h.setState_init
  | oneMember id =>
    have hslots : 2 ≤ s.cfg.filterSlots := Config.two_le_filterSlots h.cfg
    exact h.setFilter (List.pairwise_singleton _ _) (by simp; omega)
  | members hslots => exact h.setFilter (filterOfList_sorted _) hslots
  | cleared => exact h.setFifo List.nil_suffix
  | popped hq => exact h.setFifo (hq ▸ List.suffix_cons _ _)

/-- R30, at reset. -/
theorem inv_resetWith {cfg : Config} (h : cfg.wf = true) : (State.resetWith cfg).Inv :=
  .of_frame h (.of_idle (.inl rfl) ⟨.nil, nofun⟩) nofun ⟨.nil, Nat.zero_le _⟩ (fun _ _ => Nat.zero_le _)
    (Nat.two_pow_pos _)

end StateInv

/-- Settles O50, from `inv_resetWith`; the default parameters of R6 are legal. -/
theorem invariantHoldsAtReset : Obligations.InvariantHoldsAtReset :=
  ⟨inv_resetWith (by decide), fun _ => inv_resetWith⟩

/-- Settles O51: a step is a RESET, idle, or one command, and a fault changes the recorded fault alone. -/
theorem everyStepKeepsTheInvariant : Obligations.EveryStepKeepsTheInvariant := by
  intro s hinv
  constructor
  · intro t hstep
    obtain ⟨-, rfl⟩ | ⟨-, -, -, rfl⟩ | ⟨-, -, i, rest, u, -, hexec, rfl⟩ := step_next hstep
    · exact (inv_resetWith hinv.cfg).congr rfl rfl
    · exact hinv
    · exact (exec_keeps_inv hinv hexec).congr rfl rfl
  · intro t hstep
    obtain rfl | rfl := step_fault hstep
    · exact hinv
    · exact hinv.congr rfl rfl

end Sys2Proof.Machine
end

section
/-! PROOFS. Hidden state (R29): the fields of the parser that the present frame has not written, and the buffer's bytes at
and beyond the offset, are never observed. -/

namespace Sys2Proof.Machine

/-! ### The relation on parsers -/

section Parsers

variable {cfg : Config} {b : Byte} {p q : Parser}

/-- Outside a frame only the columns that outlive it can show. -/
theorem Parser.Alike.of_idle (hs : p.state = .init ∨ p.state = .sync1) (hstate : p.state = q.state)
    (hfilter : p.filter = q.filter) (hfifo : p.fifo = q.fifo) (hfrc : p.frc = q.frc) : p.Alike q := by
  rcases hs with hs | hs <;>
    exact ⟨hstate, hfilter, hfifo, hfrc, by simp [hs], by simp [hs], by simp [hs], by simp [hs], by simp [hs],
      by simp [hs], by simp [hs]⟩

/-- R100 -/
theorem Parser.Alike.setState_init (h : p.Alike q) : (p.setState .init).Alike (q.setState .init) :=
  .of_idle (.inl rfl) rfl h.filter h.fifo h.frc

/-- R101, R102 -/
theorem Parser.Alike.setFilter (h : p.Alike q) (f : List MessageId) : (p.setFilter f).Alike (q.setFilter f) :=
  { h with filter := rfl }

/-- R103, R104 -/
theorem Parser.Alike.setFifo (h : p.Alike q) (x : List Packet) : (p.setFifo x).Alike (q.setFifo x) :=
  { h with fifo := rfl }

/-! ### One transition -/

theorem rxInit_alike (h : p.Alike q) : (rxInit b p).Alike (rxInit b q) := by
  unfold rxInit
  split
  · exact .of_idle (.inr rfl) rfl h.filter h.fifo h.frc
  · exact .of_idle (.inl rfl) rfl h.filter h.fifo h.frc

/-- R85: what SYNC2 clears is alike afterwards. -/
theorem rxSync1_alike (h : p.Alike q) : (rxSync1 b p).Alike (rxSync1 b q) := by
  by_cases hb : b = Config.sync2
  · rw [hb, rxSync1_sync2, rxSync1_sync2]
    constructor <;> simp [h.filter, h.fifo, h.frc]
  · rw [rxSync1_other hb, rxSync1_other hb]
    exact h.setState_init

theorem rxClass_alike (hs : p.state = .cls) (h : p.Alike q) : (rxClass b p).Alike (rxClass b q) := by
  obtain ⟨hck, hofs⟩ := h.cksum (by simp [hs]) (by simp [hs])
  constructor <;> simp [rxClass, h.filter, h.fifo, h.frc, hck, hofs]

theorem rxId_alike (hs : p.state = .id) (h : p.Alike q) : (rxId b p).Alike (rxId b q) := by
  obtain ⟨hck, hofs⟩ := h.cksum (by simp [hs]) (by simp [hs])
  have hcls : p.cls = q.cls := h.cls (by simp [hs])
  constructor <;> simp [rxId, h.filter, h.fifo, h.frc, hck, hofs, hcls]

theorem rxLen1_alike (hs : p.state = .len1) (h : p.Alike q) : (rxLen1 b p).Alike (rxLen1 b q) := by
  obtain ⟨hck, hofs⟩ := h.cksum (by simp [hs]) (by simp [hs])
  have hcls : p.cls = q.cls := h.cls (by simp [hs])
  have hid : p.id = q.id := h.id (by simp [hs])
  constructor <;> simp [rxLen1, h.filter, h.fifo, h.frc, hck, hofs, hcls, hid]

/-- R89: the length is alike, so both parsers go the same way on, and the payload is empty in both. -/
theorem rxLen2_alike (hs : p.state = .len2) (hinv : p.FrameInv) (h : p.Alike q) :
    (rxLen2 b p).Alike (rxLen2 b q) := by
  obtain ⟨hck, hofs⟩ := h.cksum (by simp [hs]) (by simp [hs])
  have hcls : p.cls = q.cls := h.cls (by simp [hs])
  have hid : p.id = q.id := h.id (by simp [hs])
  have hofs0 : q.ofs = 0 := hofs ▸ hinv.header (.inr (.inr (.inr hs)))
  unfold rxLen2
  rw [h.lenLo hs]
  by_cases h0 : (len16 q.lenLo b).toNat = 0
  · rw [afterLength_zero h0, afterLength_zero h0]
    constructor <;> simp [h.filter, h.fifo, h.frc, hck, hofs, hofs0, hcls, hid, Parser.payload]
  · by_cases hmax : Config.maxLen < (len16 q.lenLo b).toNat
    · rw [afterLength_oversize hmax, afterLength_oversize hmax]
      exact .of_idle (.inl rfl) rfl h.filter h.fifo h.frc
    · rw [afterLength_payload h0 (Nat.not_lt.mp hmax), afterLength_payload h0 (Nat.not_lt.mp hmax)]
      constructor <;> simp [h.filter, h.fifo, h.frc, hck, hcls, hid, Parser.payload]

/-- R91: the byte is written at the offset of both parsers, so what is below the offset stays alike. -/
theorem rxData_alike (hs : p.state = .data) (hinv : p.FrameInv) (h : p.Alike q) :
    (rxData b p).Alike (rxData b q) := by
  obtain ⟨hck, hofs⟩ := h.cksum (by simp [hs]) (by simp [hs])
  have hcls : p.cls = q.cls := h.cls (by simp [hs])
  have hid : p.id = q.id := h.id (by simp [hs])
  have hlen : p.len = q.len := h.len hs
  obtain ⟨-, hmax, hlt⟩ := hinv.data hs
  have hpayload : (rxData b p).payload = (rxData b q).payload := by
    rw [rxData_payload (by omega), rxData_payload (by rw [← hofs]; omega), h.payload (by simp [hs])]
  have hstate : (rxData b p).state = (rxData b q).state := by simp [rxData, hofs, hlen]
  have hnext : (rxData b p).state = .crc1 ∨ (rxData b p).state = .data := by
    simp only [rxData]
    split <;> simp
  constructor
  case state => exact hstate
  case payload => exact fun _ => hpayload
  case lenLo => rcases hnext with hn | hn <;> simp [hn]
  case rxA => rcases hnext with hn | hn <;> simp [hn]
  all_goals simp [rxData, h.filter, h.fifo, h.frc, hck, hofs, hcls, hid, hlen]

theorem rxCrc1_alike (hs : p.state = .crc1) (h : p.Alike q) : (rxCrc1 b p).Alike (rxCrc1 b q) := by
  obtain ⟨hck, hofs⟩ := h.cksum (by simp [hs]) (by simp [hs])
  have hcls : p.cls = q.cls := h.cls (by simp [hs])
  have hid : p.id = q.id := h.id (by simp [hs])
  have hpayload : p.payload = q.payload := h.payload (by simp [hs])
  constructor
  case payload => exact fun _ => hpayload
  all_goals simp [rxCrc1, h.filter, h.fifo, h.frc, hck, hofs, hcls, hid]

/-- Two transitions that both fail, or leave parsers that are alike. -/
def TransitionsAlike (x y : Except FaultReason Parser) : Prop :=
  (x = .error .fifoOverflow ∧ y = .error .fifoOverflow) ∨ ∃ p q, x = .ok p ∧ y = .ok q ∧ p.Alike q

/-- R94, R95: everything the last byte of a frame compares or queues is alike, so both parsers end the frame alike. -/
theorem rxCrc2_alike (hs : p.state = .crc2) (h : p.Alike q) :
    TransitionsAlike (rxCrc2 cfg b p) (rxCrc2 cfg b q) := by
  have hck : p.ck = q.ck := (h.cksum (by simp [hs]) (by simp [hs])).1
  have hcls : p.cls = q.cls := h.cls (by simp [hs])
  have hid : p.id = q.id := h.id (by simp [hs])
  have hpayload : p.payload = q.payload := h.payload (by simp [hs])
  have hrxA : p.rxA = q.rxA := h.rxA hs
  by_cases hm : p.ck.a = p.rxA ∧ p.ck.b = b
  · have hm' : q.ck.a = q.rxA ∧ q.ck.b = b := by rwa [← hck, ← hrxA]
    by_cases ha : p.filter = [] ∨ ⟨p.cls, p.id⟩ ∈ p.filter
    · have ha' : q.filter = [] ∨ ⟨q.cls, q.id⟩ ∈ q.filter := by rwa [← h.filter, ← hcls, ← hid]
      by_cases hfull : cfg.fifoDepth = some p.fifo.length
      · exact .inl ⟨rxCrc2_full hfull (.inr ha), rxCrc2_full (h.fifo ▸ hfull) (.inr ha')⟩
      · refine .inr ⟨_, _, rxCrc2_admitted hm ha hfull, rxCrc2_admitted hm' ha' (h.fifo ▸ hfull), ?_⟩
        exact .of_idle (.inl rfl) rfl h.filter (by simp [h.fifo, hcls, hid, hpayload]) (by simp [h.frc])
    · have ha' : ¬(q.filter = [] ∨ ⟨q.cls, q.id⟩ ∈ q.filter) := by rwa [← h.filter, ← hcls, ← hid]
      refine .inr ⟨_, _, rxCrc2_dropped hm ha, rxCrc2_dropped hm' ha', ?_⟩
      exact .of_idle (.inl rfl) rfl h.filter h.fifo (by simp [h.frc])
  · have hm' : ¬(q.ck.a = q.rxA ∧ q.ck.b = b) := by rwa [← hck, ← hrxA]
    by_cases hfull : cfg.fifoDepth = some p.fifo.length
    · exact .inl ⟨rxCrc2_full hfull (.inl hm), rxCrc2_full (h.fifo ▸ hfull) (.inl hm')⟩
    · refine .inr ⟨_, _, rxCrc2_mismatch hm hfull, rxCrc2_mismatch hm' (h.fifo ▸ hfull), ?_⟩
      exact .of_idle (.inl rfl) rfl h.filter (by simp [h.fifo]) h.frc

/-- R29: a transition shows no hidden field. -/
theorem rxStep_alike (hinv : p.FrameInv) (h : p.Alike q) :
    TransitionsAlike (rxStep cfg b p) (rxStep cfg b q) := by
  cases hs : p.state with
  | init => exact .inr ⟨_, _, rxStep_init hs, rxStep_init (h.state ▸ hs), rxInit_alike h⟩
  | sync1 => exact .inr ⟨_, _, rxStep_sync1 hs, rxStep_sync1 (h.state ▸ hs), rxSync1_alike h⟩
  | cls => exact .inr ⟨_, _, rxStep_cls hs, rxStep_cls (h.state ▸ hs), rxClass_alike hs h⟩
  | id => exact .inr ⟨_, _, rxStep_id hs, rxStep_id (h.state ▸ hs), rxId_alike hs h⟩
  | len1 => exact .inr ⟨_, _, rxStep_len1 hs, rxStep_len1 (h.state ▸ hs), rxLen1_alike hs h⟩
  | len2 => exact .inr ⟨_, _, rxStep_len2 hs, rxStep_len2 (h.state ▸ hs), rxLen2_alike hs hinv h⟩
  | data => exact .inr ⟨_, _, rxStep_data hs, rxStep_data (h.state ▸ hs), rxData_alike hs hinv h⟩
  | crc1 => exact .inr ⟨_, _, rxStep_crc1 hs, rxStep_crc1 (h.state ▸ hs), rxCrc1_alike hs h⟩
  | crc2 =>
    rw [rxStep_crc2 hs, rxStep_crc2 (h.state ▸ hs)]
    exact rxCrc2_alike hs h

end Parsers

/-! ### One command -/

section Commands

variable {s t : State}

theorem State.Alike.setCk (h : s.Alike t) (x : Cksum) : (s.setCk x).Alike (t.setCk x) := { h with ck := rfl }

theorem State.Alike.setP (h : s.Alike t) {p q : Parser} (hp : p.Alike q) : (s.setP p).Alike (t.setP q) :=
  { h with p := hp }

theorem State.Alike.setFault (h : s.Alike t) (r : FaultReason) : (s.setFault r).Alike (t.setFault r) :=
  { h with fault := rfl }

theorem State.Alike.addResponse (h : s.Alike t) (r : List Byte) : (s.addResponse r).Alike (t.addResponse r) :=
  { h with responses := congrArg (· ++ [r]) h.responses }

theorem emit_alike (h : s.Alike t) (r : List Byte) : OutcomesAlike (emit r s) (emit r t) :=
  h.addResponse r

theorem execRxb_alike (hinv : s.Inv) (h : s.Alike t) (b : Byte) :
    OutcomesAlike (execRxb b s) (execRxb b t) := by
  unfold execRxb
  obtain ⟨hp, hq⟩ | ⟨p, q, hp, hq, halike⟩ := rxStep_alike (cfg := s.cfg) (b := b) hinv.frame h.p
  · rw [hp, ← h.cfg, hq]
    exact h.setFault .fifoOverflow
  · rw [hp, ← h.cfg, hq]
    exact emit_alike (h.setP halike) []

/-- R29: no command shows a hidden field. -/
theorem exec_alike (hinv : s.Inv) (h : s.Alike t) (i : Instr) : OutcomesAlike (exec i s) (exec i t) := by
  cases i with
  | ckrst => exact emit_alike (h.setCk _) _
  | ckadd b =>
    simp only [exec, execCkadd, h.ck]
    exact emit_alike (h.setCk _) _
  | ckval =>
    simp only [exec, execCkval, h.ck]
    exact emit_alike h _
  | ckmat ra rb =>
    simp only [exec, execCkmat, h.ck]
    exact emit_alike h _
  | enc id payload =>
    simp only [exec, execEnc]
    split
    · rfl
    · exact emit_alike h _
  | rxb b => exact execRxb_alike hinv h b
  | prst => exact emit_alike (h.setP h.p.setState_init) _
  | filt id => exact emit_alike (h.setP (h.p.setFilter _)) _
  | filts ids =>
    simp only [exec, execFilts, h.cfg]
    split
    · rfl
    · exact emit_alike (h.setP (h.p.setFilter _)) _
  | qclr => exact emit_alike (h.setP (h.p.setFifo _)) _
  | qpop =>
    simp only [exec, execQpop, h.p.fifo]
    split
    · exact emit_alike h _
    · exact emit_alike (h.setP (h.p.setFifo _)) _
  | frcnt =>
    simp only [exec, execFrcnt, h.cfg, h.p.frc]
    exact emit_alike h _

/-- R114: nor does a standing fault. -/
theorem issue_alike (hinv : s.Inv) (h : s.Alike t) (i : Instr) : OutcomesAlike (issue i s) (issue i t) := by
  unfold issue
  cases hf : s.fault with
  | none =>
    rw [unlessFaulted_none hf, unlessFaulted_none (h.fault ▸ hf)]
    exact exec_alike hinv h i
  | some r =>
    rw [unlessFaulted_some hf, unlessFaulted_some (h.fault ▸ hf)]
    exact h

end Commands

/-! ### Command sequences -/

/-- Outcomes that are alike are of one kind. -/
theorem OutcomesAlike.cases {o o' : Host.Outcome State Fault Refusal} (h : OutcomesAlike o o') :
    (∃ s t, o = .next s ∧ o' = .next t ∧ s.Alike t) ∨
    (∃ s t, o = .fault (.fifoOverflow s) ∧ o' = .fault (.fifoOverflow t) ∧ s.Alike t) ∨
    (∃ r, o = .refused r ∧ o' = .refused r) := by
  unfold OutcomesAlike at h
  split at h
  · exact .inl ⟨_, _, rfl, rfl, h⟩
  · exact .inr (.inl ⟨_, _, rfl, rfl, h⟩)
  · exact .inr (.inr ⟨_, rfl, h ▸ rfl⟩)
  · exact h.elim

/-- R30: an issued command keeps the invariants. -/
theorem issue_keeps_inv {s t : State} {i : Instr} (h : s.Inv) (hissue : issue i s = .next t) : t.Inv :=
  exec_keeps_inv h (unlessFaulted_next hissue).2

/-- Settles O52, by induction on the commands: each keeps both the likeness and the invariants. -/
theorem hiddenFieldsAreUnobservable : Obligations.HiddenFieldsAreUnobservable := by
  intro is
  induction is with
  | nil => exact fun s t _ h => h
  | cons i is ih =>
    intro s t hinv h
    unfold runCommands
    obtain ⟨u, v, hs, ht, halike⟩ | ⟨u, v, hs, ht, halike⟩ | ⟨r, hs, ht⟩ := (issue_alike hinv h i).cases
    · rw [hs, ht]
      exact ih u v (issue_keeps_inv hinv hs) halike
    · rw [hs, ht]
      exact halike
    · rw [hs, ht]
      exact rfl

end Sys2Proof.Machine
end

section
/-! PROOFS. The command stream: what is encoded is decoded again (R55 to R62), so that stepping the stream runs the
commands it encodes (R38). -/

namespace Sys2Proof.Machine

/-! ### Decoding an encoded command -/

/-- R55, R57: the opcode selects the row, and the row's format reads the operands. -/
theorem decode_of_operands {m : Mnemonic} {bs : List Byte} {r : Instr × List Byte}
    (h : decodeOperands m bs = some r) : decode (m.opcode :: bs) = .ok r := by
  simp [decode, mnemonicOf_opcode, h]

/-- R56, R63: the operands of ENC read back. -/
theorem decodeOperands_enc (id : MessageId) {payload : List Byte} (h : payload.length ≤ 65535) (rest : List Byte) :
    decodeOperands .enc (id.cls :: id.id :: lo8 payload.length :: hi8 payload.length :: (payload ++ rest)) =
      some (.enc id payload, rest) := by
  simp [decodeOperands, len16_lo8_hi8 h, takeBytes_append]

/-- R56, R58: the operands of FILTS read back. -/
theorem decodeOperands_filts {ids : List MessageId} (h : ids.length ≤ 255) (rest : List Byte) :
    decodeOperands .filts (lo8 ids.length :: (idBytes ids ++ rest)) = some (.filts ids, rest) := by
  have hcount : (lo8 ids.length).toNat = ids.length := by rw [lo8_toNat]; omega
  simp [decodeOperands, hcount, takeIds_append]

/-- R56, R58, R60: the encoding of a well-formed command decodes to the command and what follows it. -/
theorem decode_encode {i : Instr} (h : i.wf = true) (rest : List Byte) : decode (encode i ++ rest) = .ok (i, rest) := by
  cases i with
  | ckrst => exact decode_of_operands (m := .ckrst) rfl
  | ckadd b => exact decode_of_operands (m := .ckadd) rfl
  | ckval => exact decode_of_operands (m := .ckval) rfl
  | ckmat ra rb => exact decode_of_operands (m := .ckmat) rfl
  | enc id payload => exact decode_of_operands (decodeOperands_enc id (of_decide_eq_true h) rest)
  | rxb b => exact decode_of_operands (m := .rxb) rfl
  | prst => exact decode_of_operands (m := .prst) rfl
  | filt id => exact decode_of_operands (m := .filt) rfl
  | filts ids => exact decode_of_operands (decodeOperands_filts (of_decide_eq_true h) rest)
  | qclr => exact decode_of_operands (m := .qclr) rfl
  | qpop => exact decode_of_operands (m := .qpop) rfl
  | frcnt => exact decode_of_operands (m := .frcnt) rfl

/-! ### Runs of commands -/

section Runs

variable {i : Instr} {is : List Instr} {s t : State}

/-- R114.3: without a standing fault an issued command is its own rule. -/
theorem issue_of_no_fault (h : s.fault = none) : issue i s = exec i s := unlessFaulted_none h _

/-- R124: a run begins with its first command. -/
theorem runCommands_cons (hfault : s.fault = none) (h : exec i s = .next t) :
    runCommands (i :: is) s = runCommands is t := by
  simp [runCommands, issue_of_no_fault hfault, h]

/-- R124: everything a run that begins with a command and answers a next state has done. -/
theorem runCommands_cons_next (h : runCommands (i :: is) s = .next t) :
    ∃ u, s.fault = none ∧ exec i s = .next u ∧ runCommands is u = .next t := by
  unfold runCommands at h
  cases hi : issue i s with
  | next u =>
    obtain ⟨hfault, hexec⟩ := unlessFaulted_next hi
    exact ⟨u, hfault, hexec, by rwa [hi] at h⟩
  | fault f => rw [hi] at h; cases h
  | refused r => rw [hi] at h; cases h

/-! ### The pending bytes and the RESET input -/

/-- No command writes the RESET input (R106). -/
theorem exec_resetIn (h : exec i s = .next t) : t.resetIn = s.resetIn := by
  obtain ⟨x, p, r, rfl, -⟩ := exec_next h
  rfl

/-- R95, R116: RXB faults where the transition does. -/
theorem execRxb_error {b : Byte} {r : FaultReason} (h : rxStep s.cfg b s.p = .error r) :
    execRxb b s = .fault (.fifoOverflow (s.setFault .fifoOverflow)) :=
  execRxb_fault.mpr ⟨⟨r, h⟩, rfl⟩

/-- No command reads or writes the pending command bytes (R106). -/
theorem exec_setCommands (i : Instr) (s : State) (bs : List Byte) :
    exec i (s.setCommands bs) = mapOutcome (·.setCommands bs) (exec i s) := by
  cases i with
  | enc id payload =>
    simp only [exec, execEnc, apply_ite (mapOutcome _)]
    rfl
  | filts ids =>
    simp only [exec, execFilts, apply_ite (mapOutcome _)]
    rfl
  | rxb b =>
    show execRxb b (s.setCommands bs) = mapOutcome _ (execRxb b s)
    cases h : rxStep s.cfg b s.p with
    | ok p =>
      rw [execRxb_ok h, execRxb_ok (s := s.setCommands bs) h]
      rfl
    | error r =>
      rw [execRxb_error h, execRxb_error (s := s.setCommands bs) h]
      rfl
  | qpop =>
    simp only [exec, execQpop, State.setCommands_p]
    cases s.p.fifo <;> rfl
  | ckrst | ckadd | ckval | ckmat | prst | filt | qclr | frcnt => rfl

/-- R38: a step on a stream that begins with the encoding of a command executes it and leaves the bytes after it. -/
theorem step_of_encode (hwf : i.wf = true) (hreset : s.resetIn = false) (hfault : s.fault = none)
    (hexec : exec i s = .next t) (rest : List Byte) :
    step (s.setCommands (encode i ++ rest)) = .next (t.setCommands rest) := by
  rw [step_of_decode (s := s.setCommands (encode i ++ rest)) hreset hfault (decode_encode hwf rest), exec_setCommands,
    hexec]
  rfl

/-- A run of the machine begins with its first step. -/
theorem core_run_succ {k : Nat} (h : step s = .next t) : Host.Core.run core (k + 1) s = Host.Core.run core k t := by
  simp only [Host.Core.run, Host.Check.core_step, h]

end Runs

/-- Settles O57, by induction on the commands: `step_of_encode` is the simulation of one command by one step. -/
theorem commandStreamRunsTheCommands : Obligations.CommandStreamRunsTheCommands := by
  intro is
  induction is with
  | nil =>
    rintro s t rest - - ⟨⟩
    rfl
  | cons i is ih =>
    intro s t rest hwf hreset hrun
    obtain ⟨hwfi, hwfis⟩ := List.forall_mem_cons.mp hwf
    obtain ⟨u, hfault, hexec, hrun'⟩ := runCommands_cons_next hrun
    have hstep : step (s.setCommands (encode i ++ (encodeAll is ++ rest))) =
        .next (u.setCommands (encodeAll is ++ rest)) := step_of_encode hwfi hreset hfault hexec _
    rw [encodeAll, List.append_assoc]
    exact (core_run_succ hstep).trans (ih u t rest hwfis ((exec_resetIn hexec).trans hreset) hrun')

end Sys2Proof.Machine
end

section
/-! PROOFS. What each command moves (R36), and the commands that are idempotent (R37). -/

namespace Sys2Proof.Machine

/-- R49: a frame has eight bytes beside its payload. -/
@[simp] theorem length_encodeFrame (id : MessageId) (payload : List Byte) :
    (encodeFrame id payload).length = 8 + payload.length := by
  simp [encodeFrame, frameBody]
  omega

/-- R59: a packet in QPOP's response has four bytes beside its payload. -/
@[simp] theorem length_packetBytes (pkt : Packet) : (packetBytes pkt).length = 4 + pkt.payload.length := by
  simp [packetBytes]
  omega

/-- R56: ENC has five bytes beside its payload. -/
theorem length_encode_enc (id : MessageId) (payload : List Byte) :
    (encode (.enc id payload)).length = 5 + payload.length := by
  simp [encode]
  omega

/-- R56: FILTS has two bytes and two for each MessageId. -/
theorem length_encode_filts (ids : List MessageId) : (encode (.filts ids)).length = 2 + 2 * ids.length := by
  simp [encode]
  omega

/-- Settles O37: `exec_next` gives each command's response. -/
theorem commandsMoveFixedAmounts : Obligations.CommandsMoveFixedAmounts := by
  refine ⟨fun _ => ⟨rfl, rfl⟩, length_encode_enc, length_encode_filts, ?_⟩
  intro i s t h
  obtain ⟨x, p, r, rfl, heffect⟩ := exec_next h
  refine ⟨r, rfl, ?_⟩
  cases i with
  | ckrst | ckadd | ckval | ckmat | rxb | prst | filt | qclr =>
    obtain ⟨-, -, rfl⟩ := heffect
    rfl
  | enc id payload =>
    obtain ⟨-, -, rfl, -⟩ := heffect
    exact length_encodeFrame id payload
  | filts ids =>
    obtain ⟨-, -, rfl, -⟩ := heffect
    rfl
  | qpop =>
    obtain ⟨-, heffect⟩ := heffect
    cases hq : s.p.fifo with
    | nil =>
      simp only [hq] at heffect
      obtain ⟨-, rfl⟩ := heffect
      rfl
    | cons pkt q =>
      simp only [hq] at heffect
      obtain ⟨-, rfl⟩ := heffect
      simp
      omega
  | frcnt =>
    obtain ⟨-, -, rfl⟩ := heffect
    exact length_leBytes _ _

/-- Settles O39: each of the five writes a value that does not depend on what it replaces, and the parameters FILTS
tests are never written. -/
theorem resettingCommandsAreIdempotent : Obligations.ResettingCommandsAreIdempotent := by
  intro i s t hi h
  obtain ⟨x, p, r, rfl, heffect⟩ := exec_next h
  cases i with
  | ckrst | prst | filt | qclr =>
    obtain ⟨rfl, rfl, -⟩ := heffect
    rfl
  | filts ids =>
    obtain ⟨-, rfl, -, hslots⟩ := heffect
    exact if_neg (Nat.not_lt.mpr hslots)
  | ckadd | ckval | ckmat | enc | rxb | qpop | frcnt => simp [Instr.mnemonic] at hi

end Sys2Proof.Machine
end

section
/-! PROOFS. A frame fed to the parser byte by byte (R83 to R96), and what a sequence of good frames leaves in the
FIFO. -/

namespace Sys2Proof.Machine

/-! ### Bytes through the parser -/

/-- R97: the parser's transitions on a byte sequence, up to the first that fails. -/
def rxBytes (cfg : Config) (bs : List Byte) (p : Parser) : Except FaultReason Parser :=
  bs.foldlM (fun p b => rxStep cfg b p) p

section Bytes

variable {cfg : Config} {b : Byte} {bs : List Byte} {p q : Parser}

theorem rxBytes_cons (h : rxStep cfg b p = .ok q) : rxBytes cfg (b :: bs) p = rxBytes cfg bs q := by
  simp [rxBytes, h, bind, Except.bind]

theorem rxBytes_singleton : rxBytes cfg [b] p = rxStep cfg b p := by
  cases h : rxStep cfg b p <;> simp [rxBytes, h, bind, Except.bind, pure, Except.pure]

/-- R97: bytes in two parts are the bytes at once. -/
theorem rxBytes_append {x : List Byte} (h : rxBytes cfg x p = .ok q) (y : List Byte) :
    rxBytes cfg (x ++ y) p = rxBytes cfg y q := by
  simp only [rxBytes] at h
  simp [rxBytes, h, bind, Except.bind]

/-- R65, R83: RXFEED applies the transitions and writes nothing else but its empty responses. -/
theorem runCommands_rxFeed {s : State} (hfault : s.fault = none) (h : rxBytes s.cfg bs s.p = .ok q) :
    runCommands (rxFeed bs) s = .next { s with p := q, responses := s.responses ++ bs.map fun _ => [] } := by
  induction bs generalizing s with
  | nil =>
    obtain rfl : s.p = q := Except.ok.inj h
    simp [rxFeed, runCommands]
  | cons b bs ih =>
    cases hb : rxStep s.cfg b s.p with
    | error r => simp [rxBytes, hb, bind, Except.bind] at h
    | ok p =>
      rw [rxBytes_cons hb] at h
      have hrest := ih (s := (s.setP p).addResponse []) hfault h
      rw [rxFeed, List.map_cons, runCommands_cons (i := .rxb b) hfault (execRxb_ok hb)]
      exact hrest.trans (by simp [State.setP, State.addResponse])

end Bytes

/-! ### One frame -/

/-- `q` is in a frame that began when the parser was `p`: it has consumed the header bytes and the payload bytes `x`,
and nothing that outlives the frame is touched yet. -/
structure Parser.Received (p : Parser) (c i lL lH : Byte) (x : List Byte) (q : Parser) : Prop where
  cls : q.cls = c
  id : q.id = i
  len : q.len = len16 lL lH
  payload : q.payload = x
  ck : q.ck = feed ⟨0, 0⟩ ([c, i, lL, lH] ++ x)
  queues : p.SameQueues q

section Frames

variable {cfg : Config} {c i lL lH : Byte} {x : List Byte} {p q : Parser}

/-- R20: the offset counts the payload bytes. -/
theorem Parser.Received.ofs (h : p.Received c i lL lH x q) : q.ofs.toNat = x.length := by
  simpa [Parser.payload] using congrArg List.length h.payload

/-- R84: SYNC1 leads on. -/
theorem rxInit_sync1 (p : Parser) : rxInit Config.sync1 p = p.setState .sync1 := if_pos rfl

/-- R84 to R89: from `Init` the six header bytes lead to the test of the length, everything latched and added. -/
theorem rxBytes_header (hs : p.state = .init) :
    rxBytes cfg [Config.sync1, Config.sync2, c, i, lL, lH] p = .ok (afterLength (len16 lL lH)
      { p with cls := c, id := i, lenLo := lL, lenHi := lH, len := len16 lL lH, ofs := 0,
               ck := feed ⟨0, 0⟩ [c, i, lL, lH], state := .len2 }) := by
  rw [rxBytes_cons (rxStep_init hs), rxInit_sync1, rxBytes_cons (rxStep_sync1 rfl), rxSync1_sync2,
    rxBytes_cons (rxStep_cls rfl), rxBytes_cons (rxStep_id rfl), rxBytes_cons (rxStep_len1 rfl),
    rxBytes_singleton, rxStep_len2 rfl]
  rfl

/-- R89: a header with a legal length is received, and the payload follows if there is one. -/
theorem rxBytes_header_received (hs : p.state = .init) (hlen : (len16 lL lH).toNat ≤ Config.maxLen) :
    ∃ q, rxBytes cfg [Config.sync1, Config.sync2, c, i, lL, lH] p = .ok q ∧ p.Received c i lL lH [] q ∧
      q.state = if (len16 lL lH).toNat = 0 then .crc1 else .data := by
  refine ⟨_, rxBytes_header hs, ?_⟩
  by_cases h0 : (len16 lL lH).toNat = 0
  · rw [afterLength_zero h0, if_pos h0]
    exact ⟨⟨rfl, rfl, rfl, rfl, rfl, rfl, rfl, rfl⟩, rfl⟩
  · rw [afterLength_payload h0 hlen, if_neg h0]
    exact ⟨⟨rfl, rfl, rfl, rfl, rfl, rfl, rfl, rfl⟩, rfl⟩

/-- R91: one more payload byte is received, and the last one ends `Data`. -/
theorem rxData_received (h : p.Received c i lL lH x q) (hx : x.length < Config.maxLen) (b : Byte) :
    p.Received c i lL lH (x ++ [b]) (rxData b q) ∧
      (rxData b q).state = if x.length + 1 = (len16 lL lH).toNat then .crc1 else .data := by
  have hofs : q.ofs.toNat < Config.maxLen := h.ofs ▸ hx
  have hofs' : (rxData b q).ofs.toNat = x.length + 1 := h.ofs ▸ rxData_ofs hofs
  constructor
  · refine ⟨h.cls, h.id, h.len, ?_, ?_, h.queues.filter, h.queues.fifo, h.queues.frc⟩
    · rw [rxData_payload hofs, h.payload]
    · rw [← List.append_assoc]
      exact addByte_of_feed h.ck b
  · have hend : (rxData b q).ofs = q.len ↔ x.length + 1 = (len16 lL lH).toNat := by
      rw [← hofs', ← h.len, BitVec.toNat_inj]
    exact if_congr hend rfl rfl

/-- R91, R92: in `Data` the missing payload bytes are received, whatever they are, and lead to `Crc1`. -/
theorem rxBytes_payload {y : List Byte} (hs : q.state = .data) (h : p.Received c i lL lH x q) (hy : y ≠ [])
    (hlen : x.length + y.length = (len16 lL lH).toNat) (hmax : (len16 lL lH).toNat ≤ Config.maxLen) :
    ∃ r, rxBytes cfg y q = .ok r ∧ p.Received c i lL lH (x ++ y) r ∧ r.state = .crc1 := by
  induction y generalizing x q with
  | nil => exact absurd rfl hy
  | cons b y ih =>
    rw [List.length_cons] at hlen
    obtain ⟨hreceived, hstate⟩ := rxData_received h (by omega) b
    rw [rxBytes_cons (rxStep_data hs)]
    by_cases hlast : y = []
    · subst hlast
      exact ⟨_, rfl, hreceived, hstate.trans (if_pos hlen)⟩
    · have hpos : y.length ≠ 0 := by simpa using hlast
      have hdata : (rxData b q).state = .data := hstate.trans (if_neg (by omega))
      obtain ⟨r, hr, hreceived', hcrc⟩ := ih hdata hreceived hlast (by simp; omega)
      exact ⟨r, hr, by simpa using hreceived', hcrc⟩

/-- R84 to R92: from `Init` a header with a legal length and a payload of that length lead to `Crc1`. -/
theorem rxBytes_body {payload : List Byte} (hs : p.state = .init) (hlen : payload.length = (len16 lL lH).toNat)
    (hmax : (len16 lL lH).toNat ≤ Config.maxLen) :
    ∃ q, rxBytes cfg ([Config.sync1, Config.sync2, c, i, lL, lH] ++ payload) p = .ok q ∧
      p.Received c i lL lH payload q ∧ q.state = .crc1 := by
  obtain ⟨q, hq, hreceived, hstate⟩ := rxBytes_header_received (cfg := cfg) (c := c) (i := i) hs hmax
  rw [rxBytes_append hq]
  by_cases h0 : payload = []
  · subst h0
    exact ⟨q, rfl, hreceived, hstate.trans (if_pos hlen.symm)⟩
  · have hpos : payload.length ≠ 0 := by simpa using h0
    exact rxBytes_payload (hstate.trans (if_neg (by omega))) hreceived h0 (by simpa using hlen) hmax

/-- R93: the received ckA is no part of what is received. -/
theorem Parser.Received.rxCrc1 (h : p.Received c i lL lH x q) (b : Byte) : p.Received c i lL lH x (rxCrc1 b q) :=
  { h with queues := ⟨h.queues.filter, h.queues.fifo, h.queues.frc⟩ }

/-- R93: the two checksum bytes are latched and compared. -/
theorem rxBytes_cksum {xA xB : Byte} (hs : q.state = .crc1) :
    rxBytes cfg [xA, xB] q = rxCrc2 cfg xB (rxCrc1 xA q) := by
  rw [rxBytes_cons (rxStep_crc1 hs), rxBytes_singleton, rxStep_crc2 rfl]

end Frames

/-- R11, R12: the packet of a frame. -/
def packetOf (f : Frame) : Packet := ⟨f.id, f.payload⟩

/-- R94, R96: what the frames of the packets `pkts`, each good, leave of the parser `p`: it is in `Init`, each frame is
counted, and those the filter admits are queued in order. -/
structure Parser.AfterGoodFrames (cfg : Config) (p : Parser) (pkts : List Packet) (q : Parser) : Prop where
  state : q.state = .init
  filter : q.filter = p.filter
  fifo : q.fifo = p.fifo ++ pkts.filter fun pkt => filterAdmits p.filter pkt.id
  frc : q.frc = (p.frc + pkts.length) % 2 ^ cfg.wFrc

section GoodFrames

variable {cfg : Config} {p q r : Parser}

/-- R94: a received frame whose checksum matches is counted, and queued where the filter admits it. -/
theorem rxCrc2_good {c i lL lH xB : Byte} {payload : List Byte} (h : p.Received c i lL lH payload q)
    (hck : q.ck.a = q.rxA ∧ q.ck.b = xB)
    (hroom : filterAdmits p.filter ⟨c, i⟩ = true → cfg.fifoDepth ≠ some p.fifo.length) :
    ∃ r, rxCrc2 cfg xB q = .ok r ∧ p.AfterGoodFrames cfg [⟨⟨c, i⟩, payload⟩] r := by
  obtain ⟨rfl, rfl, -, rfl, -, hfilter, hfifo, hfrc⟩ := h
  cases hadmits : filterAdmits p.filter ⟨q.cls, q.id⟩ with
  | true =>
    have ha : q.filter = [] ∨ ⟨q.cls, q.id⟩ ∈ q.filter := by rwa [hfilter, ← filterAdmits_iff]
    exact ⟨_, rxCrc2_admitted hck ha (hfifo ▸ hroom hadmits), rfl, hfilter, by simp [hfifo, hadmits], by simp [hfrc]⟩
  | false =>
    have ha : ¬(q.filter = [] ∨ ⟨q.cls, q.id⟩ ∈ q.filter) := by rw [hfilter, ← filterAdmits_iff, hadmits]; simp
    exact ⟨_, rxCrc2_dropped hck ha, rfl, hfilter, by simp [hfifo, hadmits], by simp [hfrc]⟩

/-- R82: the wire form of a frame is parsed back. -/
theorem rxBytes_frameWire (hs : p.state = .init) {f : Frame} (hlen : f.payload.length ≤ 1000)
    (hroom : filterAdmits p.filter f.id = true → cfg.fifoDepth ≠ some p.fifo.length) :
    ∃ q, rxBytes cfg (frameWire f) p = .ok q ∧ p.AfterGoodFrames cfg [packetOf f] q := by
  have hlen16 : (len16 (lo8 f.payload.length) (hi8 f.payload.length)).toNat = f.payload.length :=
    len16_lo8_hi8 (by omega)
  obtain ⟨q, hq, hreceived, hcrc1⟩ :=
    rxBytes_body (cfg := cfg) (c := f.id.cls) (i := f.id.id) hs hlen16.symm (hlen16.trans_le hlen)
  have hwire : frameWire f =
      [Config.sync1, Config.sync2, f.id.cls, f.id.id, lo8 f.payload.length, hi8 f.payload.length] ++ f.payload ++
        [q.ck.a, q.ck.b] := by
    rw [hreceived.ck]
    rfl
  rw [hwire, rxBytes_append hq, rxBytes_cksum hcrc1]
  exact rxCrc2_good (hreceived.rxCrc1 q.ck.a) ⟨rfl, rfl⟩ hroom

/-- The frames of two packet sequences, one after the other. -/
theorem Parser.AfterGoodFrames.trans {x y : List Packet} (hx : p.AfterGoodFrames cfg x q)
    (hy : q.AfterGoodFrames cfg y r) : p.AfterGoodFrames cfg (x ++ y) r where
  state := hy.state
  filter := hy.filter.trans hx.filter
  fifo := by simp [hy.fifo, hx.fifo, hx.filter]
  frc := by simp [hy.frc, hx.frc, Nat.add_assoc]

/-- R42, R96: with an unbounded FIFO a sequence of frames is parsed back in its order. -/
theorem rxBytes_frames {frames : List Frame} (hs : p.state = .init) (hdepth : cfg.fifoDepth = none)
    (hfrc : p.frc < 2 ^ cfg.wFrc) (hlen : ∀ f ∈ frames, f.payload.length ≤ 1000) :
    ∃ q, rxBytes cfg (frames.map frameWire).flatten p = .ok q ∧ p.AfterGoodFrames cfg (frames.map packetOf) q := by
  induction frames generalizing p with
  | nil => exact ⟨p, rfl, hs, rfl, by simp, (Nat.mod_eq_of_lt hfrc).symm⟩
  | cons f frames ih =>
    obtain ⟨hlenf, hlens⟩ := List.forall_mem_cons.mp hlen
    obtain ⟨q, hq, hfirst⟩ := rxBytes_frameWire (cfg := cfg) hs hlenf (by simp [hdepth])
    have hfrc' : q.frc < 2 ^ cfg.wFrc := hfirst.frc ▸ Nat.mod_lt _ (Nat.two_pow_pos _)
    obtain ⟨r, hr, hrest⟩ := ih hfirst.state hfrc' hlens
    exact ⟨r, (rxBytes_append hq _).trans hr, hfirst.trans hrest⟩

end GoodFrames

/-! ### Popping -/

/-- R104: QPOP on a FIFO that is not empty. -/
theorem exec_qpop_cons {s : State} {pkt : Packet} {q : List Packet} (h : s.p.fifo = pkt :: q) :
    exec .qpop s = .next ((s.setP (s.p.setFifo q)).addResponse (0x01 :: packetBytes pkt)) := by
  simp [exec, execQpop, h, emit]

/-- R42, R104: popping as often as there are packets empties the FIFO and answers the packets, the oldest first. -/
theorem runCommands_qpops {pkts : List Packet} {s : State} (hfault : s.fault = none) (h : s.p.fifo = pkts) :
    ∃ u, runCommands (List.replicate pkts.length .qpop) s = .next u ∧ u.p.fifo = [] ∧
      u.responses = s.responses ++ pkts.map fun pkt => 0x01 :: packetBytes pkt := by
  induction pkts generalizing s with
  | nil => exact ⟨s, rfl, h, by simp⟩
  | cons pkt pkts ih =>
    obtain ⟨u, hu, hempty, hresponses⟩ :=
      ih (s := (s.setP (s.p.setFifo pkts)).addResponse (0x01 :: packetBytes pkt)) hfault rfl
    exact ⟨u, (runCommands_cons hfault (exec_qpop_cons h)).trans hu, hempty, by simp [hresponses]⟩

/-- Settles O24: `rxBytes_frames` says what the frames leave in the FIFO, `runCommands_qpops` that popping returns
it. -/
theorem filterKeepsTheOrderOfFrames : Obligations.FilterKeepsTheOrderOfFrames := by
  intro s frames hs hfault hdepth hempty hfrc hlen admitted
  obtain ⟨q, hq, hgood⟩ := rxBytes_frames hs hdepth hfrc hlen
  have hfifo : q.fifo = admitted.map packetOf := by
    rw [hgood.fifo, hempty, List.nil_append, List.filter_map]
    rfl
  have hfeed := runCommands_rxFeed hfault hq
  obtain ⟨u, hu, hpopped, hresponses⟩ := runCommands_qpops (s := { s with
    p := q, responses := s.responses ++ (frames.map frameWire).flatten.map fun _ => [] }) hfault hfifo
  rw [List.length_map] at hu
  refine ⟨_, u, hfeed, hgood.state, hfifo, by simpa using hgood.frc, hu, hpopped, ?_⟩
  rw [hresponses, List.map_map]
  rfl

end Sys2Proof.Machine
end

section
/-! PROOFS. The command encoding, the other way: what decodes was encoded (R56, R60), and what does not decode is
refused with its opcode byte (R61, R62). -/

namespace Sys2Proof.Machine

/-! ### Encode of decode -/

/-- R50: the low byte of a length field's value is its first byte. -/
@[simp] theorem lo8_len16 (lo hi : Byte) : lo8 (len16 lo hi).toNat = lo := by
  apply BitVec.eq_of_toNat_eq
  rw [lo8_toNat, len16_toNat]
  omega

/-- R50: the high byte of a length field's value is its second byte. -/
@[simp] theorem hi8_len16 (lo hi : Byte) : hi8 (len16 lo hi).toNat = hi := by
  apply BitVec.eq_of_toNat_eq
  rw [hi8_toNat, len16_toNat]
  omega

section Operands

variable {i : Instr} {bs rest : List Byte}

/-- R56, R63: what the operands of ENC were read from. -/
theorem encode_of_decodeOperands_enc (h : decodeOperands .enc bs = some (i, rest)) :
    i.wf = true ∧ Mnemonic.enc.opcode :: bs = encode i ++ rest := by
  simp only [decodeOperands] at h
  split at h
  · next c k lL lH bs =>
    split at h
    · next payload rest' htake =>
      cases h
      obtain ⟨hlen, rfl⟩ := takeBytes_some htake
      have hmax : payload.length ≤ 65535 := by omega
      exact ⟨decide_eq_true hmax, by simp [encode, hlen, Mnemonic.opcode]⟩
    · cases h
  · cases h

/-- R56, R58: what the operands of FILTS were read from. -/
theorem encode_of_decodeOperands_filts (h : decodeOperands .filts bs = some (i, rest)) :
    i.wf = true ∧ Mnemonic.filts.opcode :: bs = encode i ++ rest := by
  simp only [decodeOperands] at h
  split at h
  · next n bs =>
    split at h
    · next ids rest' htake =>
      cases h
      obtain ⟨hlen, rfl⟩ := takeIds_some htake
      have hmax : ids.length ≤ 255 := by omega
      exact ⟨decide_eq_true hmax, by simp [encode, hlen, lo8, Mnemonic.opcode]⟩
    · cases h
  · cases h

/-- R56, R58: operands read by a row of the opcode map are those of a well-formed command of that row. -/
theorem encode_of_decodeOperands {m : Mnemonic} (h : decodeOperands m bs = some (i, rest)) :
    i.wf = true ∧ m.opcode :: bs = encode i ++ rest := by
  cases m with
  | ckrst | ckval | prst | qclr | qpop | frcnt =>
    cases h
    exact ⟨rfl, rfl⟩
  | ckadd | rxb =>
    match bs with
    | [] => cases h
    | _ :: _ =>
      cases h
      exact ⟨rfl, rfl⟩
  | ckmat | filt =>
    match bs with
    | [] | [_] => cases h
    | _ :: _ :: _ =>
      cases h
      exact ⟨rfl, rfl⟩
  | enc => exact encode_of_decodeOperands_enc h
  | filts => exact encode_of_decodeOperands_filts h

/-- R55, R57: where the decoder succeeds, the opcode selected a row and the row's format read the operands. -/
theorem decode_cons_ok {op : Byte} (h : decode (op :: bs) = .ok (i, rest)) :
    ∃ m, m.opcode = op ∧ decodeOperands m bs = some (i, rest) := by
  simp only [decode] at h
  split at h
  · cases h
  · next m hm =>
    split at h
    · cases h
    · next hoperands =>
      cases h
      exact ⟨m, mnemonicOf_some hm, hoperands⟩

end Operands

/-- R56, R60: what decodes is the encoding of the command read, which is well-formed, and the bytes left. -/
theorem encode_of_decode {bs : List Byte} {i : Instr} {rest : List Byte} (h : decode bs = .ok (i, rest)) :
    i.wf = true ∧ bs = encode i ++ rest := by
  cases bs with
  | nil => cases h
  | cons op bs =>
    obtain ⟨m, rfl, hoperands⟩ := decode_cons_ok h
    exact encode_of_decodeOperands hoperands

/-- Settles O53, by `decode_encode`: one row of the opcode map after the other. -/
theorem decodeOfEncode : Obligations.DecodeOfEncode :=
  fun _ rest h => decode_encode h rest

/-- Settles O54: the decoder selects a row by the opcode, and the row's operands read back. -/
theorem encodeOfDecode : Obligations.EncodeOfDecode :=
  fun _ _ _ => encode_of_decode

/-- Settles O55: the words are the encodings of the commands. -/
theorem knownCommandWordsDecode : Obligations.KnownCommandWordsDecode :=
  ⟨decode_encode (i := .ckadd 0x05) rfl [],
    decode_encode (i := .ckmat 0x16 0x3F) rfl [],
    decode_encode (i := .enc ⟨0x05, 0x01⟩ [0x06, 0x08]) rfl [],
    decode_encode (i := .rxb 0xB5) rfl [],
    decode_encode (i := .filt ⟨0x05, 0x01⟩) rfl [],
    decode_encode (i := .filts [⟨0x05, 0x01⟩, ⟨0x05, 0x00⟩]) rfl [],
    decode_encode (i := .qpop) rfl [0x26]⟩

/-! ### Bytes that are no command -/

/-- R114.2: with neither RESET nor a standing fault, a step refuses bytes that have no meaning. -/
theorem step_of_fetch_bad {s : State} {r : Refusal} (hreset : s.resetIn = false) (hfault : s.fault = none)
    (h : fetch s = .bad r) : step s = .refused r := by
  simp [step, stepBy, hreset, h, unlessFaulted_none hfault]

/-- R57, R61: the illegal opcodes are those outside the opcode column. -/
theorem mnemonicOf_eq_none {op : Byte} : mnemonicOf op = none ↔ op ∉ opcodeMap.map Mnemonic.opcode := by
  simp [mnemonicOf]

/-- R61: an opcode outside the map does not decode. -/
theorem decode_of_illegal {op : Byte} (h : mnemonicOf op = none) (bs : List Byte) :
    decode (op :: bs) = .error (.illegalOpcode op) := by
  simp [decode, h]

/-- R62: a command whose operands end early does not decode. -/
theorem decode_of_no_operands {m : Mnemonic} {bs : List Byte} (h : decodeOperands m bs = none) :
    decode (m.opcode :: bs) = .error (.truncated m.opcode) := by
  simp [decode, mnemonicOf_opcode, h]

/-- Settles O45: the decoder finds no row for the opcode. -/
theorem illegalOpcodesAreRefused : Obligations.IllegalOpcodesAreRefused := by
  intro op bs s hop hreset hfault hcommands
  have hdecode : decode s.commands = .error (.illegalOpcode op) :=
    hcommands ▸ decode_of_illegal (mnemonicOf_eq_none.mpr hop) bs
  exact step_of_fetch_bad hreset hfault (by simp [fetch, hdecode])

/-- R55, R57: the first byte of an encoding is the opcode of the command's row. -/
theorem encode_eq_opcode_cons (i : Instr) : ∃ bs, encode i = i.mnemonic.opcode :: bs := by
  cases i <;> exact ⟨_, rfl⟩

/-- R60: a byte sequence that decodes is no encoding of a well-formed command cut short. -/
theorem not_decode_of_cut_short {i j : Instr} {bs missing rest : List Byte} (hwf : i.wf = true)
    (hencode : encode i = bs ++ missing) (hmissing : missing ≠ []) : decode bs ≠ .ok (j, rest) := by
  intro hdecode
  obtain ⟨hwfj, rfl⟩ := encode_of_decode hdecode
  have hi : decode (encode i) = .ok (i, []) := by simpa using decode_encode hwf []
  have hj : decode (encode i) = .ok (j, rest ++ missing) := by
    rw [hencode, List.append_assoc]
    exact decode_encode hwfj _
  simp [hi, hmissing] at hj

/-- R62: a nonempty beginning of the encoding of a well-formed command, cut short, is truncated. -/
theorem decode_of_cut_short {i : Instr} {op : Byte} {bs missing : List Byte} (hwf : i.wf = true)
    (hencode : encode i = op :: bs ++ missing) (hmissing : missing ≠ []) :
    decode (op :: bs) = .error (.truncated op) := by
  obtain ⟨operands, hhead⟩ := encode_eq_opcode_cons i
  obtain ⟨rfl, -⟩ : i.mnemonic.opcode = op ∧ operands = bs ++ missing := by simpa [hhead] using hencode
  cases hoperands : decodeOperands i.mnemonic bs with
  | none => exact decode_of_no_operands hoperands
  | some r => exact absurd (decode_of_operands hoperands) (not_decode_of_cut_short hwf hencode hmissing)

/-- Settles O46: the bytes left of a command cut short are the beginning of its encoding, and the decoder
finds its row but not its operands. -/
theorem truncatedCommandsAreRefused : Obligations.TruncatedCommandsAreRefused := by
  intro i s op bs missing hwf hencode hmissing hreset hfault hcommands
  have hdecode : decode s.commands = .error (.truncated op) :=
    hcommands ▸ decode_of_cut_short hwf hencode hmissing
  exact step_of_fetch_bad hreset hfault (by simp [fetch, hdecode])

end Sys2Proof.Machine
end

section
/-! PROOFS. The wire frame (R47 to R54): its checksum in closed form, and that a well-formed frame is an encoding. -/

namespace Sys2Proof.Machine

/-! ### The closed form of the checksum (R51) -/

/-- R68: the first byte of the accumulator adds. -/
@[simp] theorem addByte_a_toNat (x : Cksum) (v : Byte) : (addByte x v).a.toNat = (x.a.toNat + v.toNat) % 256 := by
  simp [addByte]

/-- R68: the second byte adds the new first one. -/
@[simp] theorem addByte_b_toNat (x : Cksum) (v : Byte) :
    (addByte x v).b.toNat = (x.b.toNat + (addByte x v).a.toNat) % 256 := by
  simp [addByte]

/-- R51, R71: feeding adds the byte sum to the first byte. -/
theorem feed_a_toNat (x : Cksum) (d : List Byte) : (feed x d).a.toNat = (x.a.toNat + byteSum d) % 256 := by
  induction d generalizing x with
  | nil => exact (Nat.mod_eq_of_lt x.a.isLt).symm
  | cons v d ih =>
    rw [feed, ih, addByte_a_toNat, byteSum]
    omega

/-- R51, R71: feeding adds the first byte once for each byte fed, and the weighted sum, to the second byte. -/
theorem feed_b_toNat (x : Cksum) (d : List Byte) :
    (feed x d).b.toNat = (x.b.toNat + d.length * x.a.toNat + weightedSum d) % 256 := by
  induction d generalizing x with
  | nil => simpa [feed, weightedSum] using (Nat.mod_eq_of_lt x.b.isLt).symm
  | cons v d ih =>
    have ha : (addByte x v).a.toNat ≡ x.a.toNat + v.toNat [MOD 256] := by
      rw [addByte_a_toNat]
      exact Nat.mod_modEq _ _
    have hb : (addByte x v).b.toNat ≡ x.b.toNat + (x.a.toNat + v.toNat) [MOD 256] := by
      rw [addByte_b_toNat]
      exact (Nat.mod_modEq _ _).trans (ha.add_left _)
    calc (feed x (v :: d)).b.toNat
        = ((addByte x v).b.toNat + d.length * (addByte x v).a.toNat + weightedSum d) % 256 := ih (addByte x v)
      _ = (x.b.toNat + (x.a.toNat + v.toNat) + d.length * (x.a.toNat + v.toNat) + weightedSum d) % 256 :=
          (hb.add (ha.mul_left _)).add_right _
      _ = (x.b.toNat + (v :: d).length * x.a.toNat + weightedSum (v :: d)) % 256 := by
          rw [List.length_cons, weightedSum]
          congr 1
          ring

/-- R51: the checksum of a byte sequence, from `(0, 0)`. -/
theorem feed_zero_toNat (d : List Byte) :
    (feed ⟨0, 0⟩ d).a.toNat = byteSum d % 256 ∧ (feed ⟨0, 0⟩ d).b.toNat = weightedSum d % 256 := by
  simp [feed_a_toNat, feed_b_toNat]

/-- Settles O6: the checksum bytes of a frame are the accumulator fed the frame's body. -/
theorem frameChecksumClosedForm : Obligations.FrameChecksumClosedForm := by
  refine ⟨feed_zero_toNat, fun id payload _ => ?_⟩
  obtain ⟨ha, hb⟩ := feed_zero_toNat (frameBody id payload)
  exact ⟨_, _, rfl, rfl, ha, hb⟩

/-! ### Frames and encodings (R49, R52, R54) -/

/-- R49: the bytes of a frame, one after the other. -/
theorem encodeFrame_eq (id : MessageId) (payload : List Byte) :
    encodeFrame id payload = Config.sync1 :: Config.sync2 :: id.cls :: id.id :: lo8 payload.length ::
      hi8 payload.length :: (payload ++ [(feed ⟨0, 0⟩ (frameBody id payload)).a,
        (feed ⟨0, 0⟩ (frameBody id payload)).b]) := rfl

/-- R52: the encoding of a payload that fits is a well-formed frame. -/
theorem frameWellFormed_encodeFrame (id : MessageId) {payload : List Byte} (h : payload.length ≤ 65535) :
    frameWellFormed (encodeFrame id payload) = true := by
  simp [encodeFrame_eq, frameWellFormed, len16_lo8_hi8 h, frameBody]

/-- R52: a well-formed frame has the bytes of an encoding. -/
theorem frameWellFormed_elim {bs : List Byte} (h : frameWellFormed bs = true) :
    ∃ (id : MessageId) (payload : List Byte), payload.length ≤ 65535 ∧ bs = encodeFrame id payload := by
  unfold frameWellFormed at h
  split at h
  · next y1 y2 c i lL lH rest =>
    simp only [Bool.and_eq_true, beq_iff_eq] at h
    obtain ⟨⟨⟨rfl, rfl⟩, hlength⟩, hcksum⟩ := h
    have hlen : (rest.take (len16 lL lH).toNat).length = (len16 lL lH).toNat := by simp; omega
    refine ⟨⟨c, i⟩, rest.take (len16 lL lH).toNat, by omega, ?_⟩
    rw [encodeFrame_eq]
    simp only [frameBody, hlen, lo8_len16, hi8_len16, List.cons_append, List.nil_append, ← hcksum,
      List.take_append_drop]
  · cases h

/-- Settles O10: the two directions are `frameWellFormed_elim` and `frameWellFormed_encodeFrame`. -/
theorem wellFormedFramesAreTheEncodings : Obligations.WellFormedFramesAreTheEncodings := by
  intro bs
  constructor
  · intro h
    obtain ⟨id, payload, hmax, rfl⟩ := frameWellFormed_elim h
    exact ⟨id, payload, hmax, rfl, length_encodeFrame id payload⟩
  · rintro ⟨id, payload, hmax, rfl, -⟩
    exact frameWellFormed_encodeFrame id hmax

/-- Settles O11: the header of a frame gives the length of its payload (R50), so two frames at the head of one byte
sequence end at the same byte. -/
theorem framesAreSelfDelimiting : Obligations.FramesAreSelfDelimiting := by
  intro id id' payload payload' rest rest' hmax hmax' h
  simp only [encodeFrame_eq, List.cons_append, List.append_assoc, List.cons.injEq, true_and] at h
  obtain ⟨hcls, hid, hlo, hhi, htail⟩ := h
  have hlength : payload.length = payload'.length := by
    rw [← len16_lo8_hi8 hmax, ← len16_lo8_hi8 hmax', hlo, hhi]
  obtain ⟨hpayload, hrest⟩ := List.append_inj htail hlength
  refine ⟨?_, hpayload, ?_⟩
  · cases id
    cases id'
    exact congrArg₂ MessageId.mk hcls hid
  · simp only [List.cons.injEq, List.nil_append] at hrest
    exact hrest.2.2

end Sys2Proof.Machine
end

section
/-! PROOFS. The pseudo-commands (R65), and which commands their own rules refuse (R62, R63, R102). -/

namespace Sys2Proof.Machine

/-! ### Pseudo-commands -/

/-- R65, R71: CKFEED feeds its bytes into `CK` and writes nothing else but its empty responses. -/
theorem runCommands_ckFeed {s : State} (hfault : s.fault = none) (d : List Byte) :
    runCommands (ckFeed d) s =
      .next { s with ck := feed s.ck d, responses := s.responses ++ d.map fun _ => [] } := by
  induction d generalizing s with
  | nil => simp [ckFeed, runCommands, feed]
  | cons b d ih =>
    have hrest := ih (s := (s.setCk (addByte s.ck b)).addResponse []) hfault
    rw [ckFeed, List.map_cons, runCommands_cons (i := .ckadd b) hfault rfl]
    exact hrest.trans (by simp [State.setCk, State.addResponse, feed])

/-- R101, R102: the set of one MessageId fits a filter with a slot. -/
theorem exec_filts_singleton (id : MessageId) {s : State} (h : 1 ≤ s.cfg.filterSlots) :
    exec (.filts [id]) s = exec (.filt id) s :=
  if_neg (Nat.not_lt.mpr h)

/-- R80: ENC answers the wire form of a payload that fits. -/
theorem exec_enc (id : MessageId) {payload : List Byte} (h : payload.length ≤ 65535) (s : State) :
    exec (.enc id payload) s = answered s (encodeFrame id payload) :=
  if_neg (Nat.not_lt.mpr h)

/-- Settles O40: CKRST clears `CK` and `runCommands_ckFeed` gives the rest of CKFRAME; RXFRAME is by definition the
bytes `exec_enc` answers. -/
theorem pseudoCommandsExpand : Obligations.PseudoCommandsExpand := by
  refine ⟨fun id _ => exec_filts_singleton id, fun id payload s hfault => ?_, fun id payload s hmax => ?_⟩
  · have hrun : runCommands (ckFrame id payload) s = runCommands (ckFeed (frameBody id payload))
        ((s.setCk ⟨0, 0⟩).addResponse []) := runCommands_cons hfault rfl
    have hfeed := runCommands_ckFeed (s := (s.setCk ⟨0, 0⟩).addResponse []) hfault (frameBody id payload)
    exact ⟨_, hrun.trans hfeed, rfl, rfl⟩
  · exact ⟨encodeFrame id payload, exec_enc id hmax s, rfl⟩

/-! ### Refusals of a command's own rule -/

/-- R22: the filter FILTS installs has no repeats. -/
theorem filterOfList_nodup (ids : List MessageId) : (filterOfList ids).Nodup :=
  (filterOfList_sorted ids).imp fun hlt heq => absurd (congrArg midKey heq) hlt.ne

/-- R102: the members of the filter FILTS installs number as many as the distinct MessageIds it lists. -/
theorem length_filterOfList (ids : List MessageId) : (filterOfList ids).length = ids.toFinset.card := by
  have hset : (filterOfList ids).toFinset = ids.toFinset := by
    ext m
    simp
  rw [← List.toFinset_card_of_nodup (filterOfList_nodup ids), hset]

section Refusals

variable {s : State} {r : Refusal}

/-- A rule that tests a capacity first and does not refuse otherwise. -/
theorem ite_refused_iff {c : Prop} [Decidable c] {e : Refusal} {o : Host.Outcome State Fault Refusal}
    (ho : o ≠ .refused r) : (if c then .refused e else o) = .refused r ↔ c ∧ r = e := by
  by_cases h : c <;> simp [h, ho, eq_comm]

/-- R63: ENC refuses a payload that is too long, and no other. -/
theorem exec_enc_refused {id : MessageId} {payload : List Byte} :
    exec (.enc id payload) s = .refused r ↔ 65535 < payload.length ∧ r = .payloadTooLong payload.length :=
  ite_refused_iff emit_ne_refused

/-- R62, R102: FILTS refuses more distinct MessageIds than there are slots, and no others. -/
theorem exec_filts_refused {ids : List MessageId} :
    exec (.filts ids) s = .refused r ↔
      s.cfg.filterSlots < ids.toFinset.card ∧ r = .filterOverCapacity ids.toFinset.card := by
  rw [← length_filterOfList]
  exact ite_refused_iff emit_ne_refused

/-- R83: RXB completes or faults. -/
theorem execRxb_ne_refused {b : Byte} : execRxb b s ≠ .refused r := by
  cases h : rxStep s.cfg b s.p with
  | ok p => simp [execRxb_ok h]
  | error e => simp [execRxb_error h]

/-- R104: QPOP completes. -/
theorem execQpop_ne_refused : execQpop s ≠ .refused r := by
  cases h : s.p.fifo <;> simp [execQpop, h, emit_ne_refused]

/-- R62, R63: the other ten commands do not refuse. -/
theorem exec_ne_refused {i : Instr} (henc : ∀ id payload, i ≠ .enc id payload) (hfilts : ∀ ids, i ≠ .filts ids) :
    exec i s ≠ .refused r := by
  cases i with
  | enc id payload => exact absurd rfl (henc id payload)
  | filts ids => exact absurd rfl (hfilts ids)
  | rxb b => exact execRxb_ne_refused
  | qpop => exact execQpop_ne_refused
  | ckrst | ckadd | ckval | ckmat | prst | filt | qclr | frcnt => exact emit_ne_refused

end Refusals

/-- Settles O42: ENC and FILTS are the two commands whose own rule can refuse. -/
theorem commandsRefuseOverCapacityOnly : Obligations.CommandsRefuseOverCapacityOnly := by
  intro i s r
  cases i with
  | enc id payload => simpa using exec_enc_refused
  | filts ids => simpa using exec_filts_refused
  | ckrst | ckadd | ckval | ckmat | rxb | prst | filt | qclr | qpop | frcnt => simp [exec_ne_refused]

end Sys2Proof.Machine
end

section
/-! PROOFS. The checksum unit's commands (R67 to R70), feeding in chunks (R71) and the arithmetic of the checksum
(R72). -/

namespace Sys2Proof.Machine

/-! ### Feeding in chunks (R71) -/

/-- R124: a run that completes goes on with what follows it. -/
theorem runCommands_append {is : List Instr} {s t : State} (h : runCommands is s = .next t) (js : List Instr) :
    runCommands (is ++ js) s = runCommands js t := by
  induction is generalizing s with
  | nil =>
    cases h
    rfl
  | cons i is ih =>
    obtain ⟨u, hfault, hexec, hrest⟩ := runCommands_cons_next h
    exact (runCommands_cons hfault hexec).trans (ih hrest)

/-- R65, R71: what CKFEED leaves, as far as R71 speaks of it. -/
theorem ckFeed_completes {s : State} (hfault : s.fault = none) (d : List Byte) :
    ∃ t, runCommands (ckFeed d) s = .next t ∧ t.fault = none ∧ t.ck = feed s.ck d ∧ t.p = s.p :=
  ⟨_, runCommands_ckFeed hfault d, hfault, rfl, rfl⟩

/-- Settles O5: `feed_append` is the law of `feed`; CKFEED of the concatenation is the one run after the other. -/
theorem feedingInTwoChunksIsFeedingOnce : Obligations.FeedingInTwoChunksIsFeedingOnce := by
  refine ⟨fun x d e => (feed_append x d e).symm, fun s d e hfault => ?_⟩
  obtain ⟨t, hd, hfault', hck, hp⟩ := ckFeed_completes hfault d
  obtain ⟨u, he, -, hck', hp'⟩ := ckFeed_completes hfault' e
  have hde : runCommands (ckFeed (d ++ e)) s = .next u := by
    rw [ckFeed, List.map_append]
    exact (runCommands_append hd _).trans he
  exact ⟨t, u, hd, he, hde, by rw [hck', hck, feed_append], hp'.trans hp⟩

/-! ### The sums under a change of one byte, and under a swap (R72) -/

section Sums

variable {d : List Byte} {i j : Nat}

theorem byteSum_replicate_zero (m : Nat) : byteSum (List.replicate m 0) = 0 := by
  induction m with
  | zero => rfl
  | succ m ih => simpa [List.replicate_succ, byteSum] using ih

theorem weightedSum_replicate_zero (m : Nat) : weightedSum (List.replicate m 0) = 0 := by
  induction m with
  | zero => rfl
  | succ m ih => simpa [List.replicate_succ, weightedSum] using ih

/-- R51: one byte replaced moves the byte sum by the difference. -/
theorem byteSum_set (h : i < d.length) (v : Byte) :
    (byteSum (d.set i v) : Int) = byteSum d + (v.toNat - d[i].toNat) := by
  induction d generalizing i with
  | nil => simp at h
  | cons x d ih =>
    cases i with
    | zero =>
      simp [byteSum]
      ring
    | succ i =>
      simp [byteSum, ih (Nat.lt_of_succ_lt_succ h)]
      ring

/-- R51: one byte replaced moves the weighted sum by the difference, times the weight of its place. -/
theorem weightedSum_set (h : i < d.length) (v : Byte) :
    (weightedSum (d.set i v) : Int) = weightedSum d + (d.length - i) * (v.toNat - d[i].toNat) := by
  induction d generalizing i with
  | nil => simp at h
  | cons x d ih =>
    cases i with
    | zero =>
      simp [weightedSum]
      ring
    | succ i =>
      simp [weightedSum, ih (Nat.lt_of_succ_lt_succ h)]
      ring

/-- The byte that a swap moves second is not yet changed, or changed into itself. -/
theorem getElem_set_swap (hj : j < d.length) :
    (d.set i d[j])[j]'(by simpa using hj) = d[j] := by
  rw [List.getElem_set]
  split <;> rfl

/-- R72: a swap keeps the byte sum. -/
theorem byteSum_swap (hi : i < d.length) (hj : j < d.length) :
    byteSum ((d.set i d[j]).set j d[i]) = byteSum d := by
  have h := byteSum_set (d := d.set i d[j]) (by simpa using hj) d[i]
  rw [getElem_set_swap hj, byteSum_set hi] at h
  omega

/-- R72: a swap moves the weighted sum by the distance times the difference. -/
theorem weightedSum_swap (hi : i < d.length) (hj : j < d.length) :
    (weightedSum ((d.set i d[j]).set j d[i]) : Int) = weightedSum d + (j - i) * (d[j].toNat - d[i].toNat) := by
  rw [weightedSum_set (by simpa using hj), getElem_set_swap hj, weightedSum_set hi, List.length_set]
  ring

end Sums

/-! ### The arithmetic of the checksum (R72) -/

theorem Cksum.eq_iff_toNat {x y : Cksum} : x = y ↔ x.a.toNat = y.a.toNat ∧ x.b.toNat = y.b.toNat := by
  cases x
  cases y
  simp [BitVec.toNat_inj]

/-- R72: the two sums modulo 256 decide whether two checksums are equal. -/
theorem feed_zero_eq_iff (d e : List Byte) : feed ⟨0, 0⟩ d = feed ⟨0, 0⟩ e ↔
    byteSum d % 256 = byteSum e % 256 ∧ weightedSum d % 256 = weightedSum e % 256 := by
  simp only [Cksum.eq_iff_toNat, feed_zero_toNat]

/-- R72: zero bytes keep the first byte and add it to the second one, once each. -/
theorem feed_replicate_zero (x : Cksum) (m : Nat) : (feed x (List.replicate m 0)).a = x.a ∧
    (feed x (List.replicate m 0)).b.toNat = (x.b.toNat + m * x.a.toNat) % 256 := by
  constructor
  · apply BitVec.eq_of_toNat_eq
    rw [feed_a_toNat, byteSum_replicate_zero]
    exact Nat.mod_eq_of_lt x.a.isLt
  · rw [feed_b_toNat, List.length_replicate, weightedSum_replicate_zero, Nat.add_zero]

/-- R72: sequences of one byte sum and with weighted sums apart by `change` have one `a`, and `b`s apart by
`change`. -/
theorem feed_zero_of_sums {d e : List Byte} {change : Int} (ha : byteSum e = byteSum d)
    (hb : (weightedSum e : Int) = weightedSum d + change) :
    (feed ⟨0, 0⟩ e).a = (feed ⟨0, 0⟩ d).a ∧
    (((feed ⟨0, 0⟩ e).b.toNat : Int) - (feed ⟨0, 0⟩ d).b.toNat) % 256 = change % 256 ∧
    (feed ⟨0, 0⟩ e = feed ⟨0, 0⟩ d ↔ change % 256 = 0) := by
  refine ⟨?_, ?_, ?_⟩
  · apply BitVec.eq_of_toNat_eq
    simp only [feed_zero_toNat, ha]
  · simp only [feed_zero_toNat]
    omega
  · simp only [feed_zero_eq_iff, ha, true_and]
    omega

/-- Settles O7: a swap keeps the byte sum and moves the weighted sum, and the sums decide the checksum. -/
theorem checksumArithmetic : Obligations.ChecksumArithmetic :=
  ⟨feed_zero_toNat, feed_replicate_zero, fun d e _ => feed_zero_eq_iff d e,
    fun _ _ _ hi hj => feed_zero_of_sums (byteSum_swap hi hj) (weightedSum_swap hi hj), by decide⟩

/-! ### The four commands (R67 to R70) -/

section Commands

variable (s : State)

/-- R67: CKRST always completes, with `CK` cleared. -/
theorem exec_ckrst : exec .ckrst s = answered { s with ck := ⟨0, 0⟩ } [] := rfl

/-- R68: CKADD always completes, with the byte added to `CK`. -/
theorem exec_ckadd (b : Byte) : exec (.ckadd b) s = answered { s with ck := addByte s.ck b } [] := rfl

/-- R69: CKVAL answers the two bytes of `CK`. -/
theorem exec_ckval : exec .ckval s = answered s [s.ck.a, s.ck.b] := rfl

/-- R70: CKMAT answers whether the two bytes match in order. -/
theorem exec_ckmat (ra rb : Byte) :
    exec (.ckmat ra rb) s = answered s [if s.ck.a = ra ∧ s.ck.b = rb then 0x01 else 0x00] := by
  have hmatch : exec (.ckmat ra rb) s = answered s [if cksumMatches s.ck ra rb then 0x01 else 0x00] := rfl
  simpa only [cksumMatches_iff] using hmatch

end Commands

/-- Settles O1: what CKRST leaves in `CK` does not depend on what it replaces. -/
theorem ckrstZeroesAccumulator : Obligations.CkrstZeroesAccumulator :=
  ⟨decode_encode (i := .ckrst) rfl, exec_ckrst, fun s => ⟨_, _, exec_ckrst s, exec_ckrst _, rfl, rfl⟩⟩

/-- Settles O2: the two sums are those of `addByte`. -/
theorem ckaddAddsModulo256 : Obligations.CkaddAddsModulo256 :=
  fun b s => ⟨decode_encode (i := .ckadd b) rfl,
    addByte s.ck b, addByte_a_toNat s.ck b, addByte_b_toNat s.ck b, exec_ckadd s b⟩

/-- Settles O3: the response is the two bytes of `CK`, which may both be 0. -/
theorem ckvalReadsAccumulator : Obligations.CkvalReadsAccumulator := by
  refine ⟨decode_encode (i := .ckval) rfl, exec_ckval, fun s hzero => ?_⟩
  rw [exec_ckval, hzero]

/-- Settles O4: the swapped pair matches in order only where its two bytes are equal. -/
theorem ckmatComparesBothBytes : Obligations.CkmatComparesBothBytes := by
  refine fun ra rb s => ⟨decode_encode (i := .ckmat ra rb) rfl, exec_ckmat s ra rb, fun hck hne => ?_⟩
  have hmismatch : ¬(s.ck.a = rb ∧ s.ck.b = ra) := by simp [hck, hne]
  rw [exec_ckmat, if_neg hmismatch]

end Sys2Proof.Machine
end

section
/-! PROOFS. The frame codec (R73 to R82): the MessageId operations, the encoder, and the round trip of one frame through
the machine's parser. -/

namespace Sys2Proof.Machine

/-! ### The round trip (R82) -/

/-- R82: from `Init` RXFRAME parses its frame back and touches nothing outside the parser's frame, FIFO and counter;
the FIFO needs room only where the filter admits the frame. -/
theorem runCommands_rxFrame {s : State} (id : MessageId) {payload : List Byte} (hs : s.p.state = .init)
    (hfault : s.fault = none) (hlen : payload.length ≤ 1000)
    (hroom : filterAdmits s.p.filter id = true → s.cfg.fifoDepth ≠ some s.p.fifo.length) :
    ∃ t, runCommands (rxFrame id payload) s = .next t ∧ s.p.AfterGoodFrames s.cfg [⟨id, payload⟩] t.p ∧
      SameOutsideFrame s t := by
  obtain ⟨q, hq, hgood⟩ := rxBytes_frameWire (f := ⟨id, payload⟩) hs hlen hroom
  exact ⟨_, runCommands_rxFeed hfault hq, hgood, rfl, rfl, rfl, rfl, rfl, hgood.filter⟩

/-- Settles O22: `runCommands_rxFrame` leaves the parser as after one good frame, and the filter decides whether its
packet is queued. -/
theorem encodedFramesParseBack : Obligations.EncodedFramesParseBack := by
  intro s id payload hs hfault hlen
  rw [← filterAdmits_iff]
  constructor
  · intro hadmitted hroom
    obtain ⟨t, hrun, hgood, hsame⟩ := runCommands_rxFrame id hs hfault hlen fun _ => hroom
    have hqueued : t.p.fifo = s.p.fifo ++ [⟨id, payload⟩] := by simp [hgood.fifo, hadmitted]
    exact ⟨t, hrun, hgood.state, hqueued, hgood.frc, hsame⟩
  · intro hrejected
    obtain ⟨t, hrun, hgood, hsame⟩ := runCommands_rxFrame id hs hfault hlen fun h => absurd h hrejected
    have hdropped : t.p.fifo = s.p.fifo := by simp [hgood.fifo, hrejected]
    exact ⟨t, hrun, hgood.state, hdropped, hgood.frc, hsame⟩

/-! ### The encoder (R79 to R81) -/

/-- Settles O8: `decode_encode` reads the command's bytes, `exec_enc` answers the frame of a payload that fits, and
`exec_enc_refused` refuses any other. -/
theorem encAnswersTheWireFrame : Obligations.EncAnswersTheWireFrame := by
  intro id payload s
  constructor
  · intro hfits
    have hwf : (Instr.enc id payload).wf = true := decide_eq_true hfits
    exact ⟨decode_encode hwf, _, rfl, exec_enc id hfits s⟩
  · intro hlong
    exact exec_enc_refused.mpr ⟨hlong, rfl⟩

/-- Settles O9, by evaluating the encoder on the two vectors. -/
theorem encoderVectorsHold : Obligations.EncoderVectorsHold :=
  ⟨by decide, by decide⟩

/-! ### MessageIds (R73 to R77) -/

/-- R10, R76: a MessageId is its two fields. -/
theorem eq_iff_midClass_midId {m n : MessageId} : m = n ↔ midClass m = midClass n ∧ midId m = midId n := by
  cases m
  cases n
  simp [midClass, midId]

/-- Settles O58: `midEq` decides equality, which is what filter membership and the sentinel test ask for, and equal
MessageIds have one hash. -/
theorem messageIdsAreEqualByBothFields : Obligations.MessageIdsAreEqualByBothFields := by
  refine ⟨fun _ _ => ⟨rfl, rfl⟩, fun m n => ?fields, midEq_iff, fun f m => ?member, fun pkt => ?sentinelId, ?sentinel,
    fun m n h => ?hash⟩
  case fields => exact (midEq_iff m n).trans eq_iff_midClass_midId
  case member => simp
  case sentinelId => exact (isSentinel_iff pkt).trans eq_iff_midClass_midId
  case sentinel => exact (isSentinel_iff sentinel).mpr rfl
  case hash => exact congrArg midHash ((midEq_iff m n).mp h)

end Sys2Proof.Machine
end

section
/-! PROOFS. One byte through the parser (R83 to R96): what RXB answers in each of the nine states, and where it
faults. -/

namespace Sys2Proof.Machine

section Transition

variable {cfg : Config} {b : Byte} {p q : Parser}

/-- R94, R106: no transition writes the filter. -/
theorem rxStep_filter (h : rxStep cfg b p = .ok q) : q.filter = p.filter := by
  by_cases hs : p.state = .crc2
  · rw [rxStep_crc2 hs] at h
    obtain ⟨-, -, -, rfl⟩ | ⟨-, -, rfl⟩ | ⟨-, -, rfl⟩ := rxCrc2_ok h <;> rfl
  · exact (rxStep_sameQueues hs h).filter

/-- R95, R98: a transition fails exactly where it would queue into a full FIFO. -/
theorem rxStep_error_iff : (∃ r, rxStep cfg b p = .error r) ↔
    p.state = .crc2 ∧ cfg.fifoDepth = some p.fifo.length ∧
      ((p.ck.a = p.rxA ∧ p.ck.b = b) → p.filter = [] ∨ ⟨p.cls, p.id⟩ ∈ p.filter) := by
  rw [imp_iff_not_or]
  constructor
  · rintro ⟨r, h⟩
    exact rxStep_error h
  · rintro ⟨hs, hfull, hqueues⟩
    exact ⟨_, (rxStep_crc2 hs).trans (rxCrc2_full hfull hqueues)⟩

/-- R98: a transition succeeds in every state but `Crc2`, and there where the FIFO has room. -/
theorem rxStep_ok_of_room (hroom : p.state = .crc2 → cfg.fifoDepth ≠ some p.fifo.length) :
    ∃ q, rxStep cfg b p = .ok q := by
  cases h : rxStep cfg b p with
  | ok q => exact ⟨q, rfl⟩
  | error r =>
    obtain ⟨hs, hfull, -⟩ := rxStep_error h
    exact absurd hfull (hroom hs)

end Transition

section Rxb

variable {b : Byte} {s : State}

/-- R83: where the transition succeeds, RXB replaces the parser and answers nothing. -/
theorem exec_rxb {q : Parser} (h : rxStep s.cfg b s.p = .ok q) : exec (.rxb b) s = answered { s with p := q } [] :=
  execRxb_ok h

/-- R95, R116: where RXB would queue into a full FIFO it faults, and changes nothing but the fault. -/
theorem exec_rxb_fault_iff {f : Fault} : exec (.rxb b) s = .fault f ↔
    (s.p.state = .crc2 ∧ s.cfg.fifoDepth = some s.p.fifo.length ∧
      ((s.p.ck.a = s.p.rxA ∧ s.p.ck.b = b) → s.p.filter = [] ∨ ⟨s.p.cls, s.p.id⟩ ∈ s.p.filter)) ∧
    f = .fifoOverflow { s with fault := some .fifoOverflow } := by
  rw [← rxStep_error_iff]
  exact execRxb_fault

end Rxb

/-- R68: the two sums determine the accumulator. -/
theorem eq_addByte {x y : Cksum} {b : Byte} (ha : y.a.toNat = (x.a.toNat + b.toNat) % 256)
    (hb : y.b.toNat = (x.b.toNat + y.a.toNat) % 256) : y = addByte x b := by
  rw [Cksum.eq_iff_toNat, addByte_b_toNat, addByte_a_toNat, ← ha]
  exact ⟨rfl, hb⟩

/-- R50: the sum of its two bytes determines a length. -/
theorem eq_len16 {len : U16} {lo hi : Byte} (h : len.toNat = lo.toNat + 256 * hi.toNat) : len = len16 lo hi :=
  BitVec.eq_of_toNat_eq (h.trans (len16_toNat lo hi).symm)

/-- R84: `Init` writes `P.state` alone. -/
theorem rxInit_eq (b : Byte) (p : Parser) :
    rxInit b p = p.setState (if b = Config.sync1 then .sync1 else .init) := by
  unfold rxInit
  split <;> rfl

/-- Settles O12, by `rxInit_eq`. -/
theorem rxbInInitLooksForSync : Obligations.RxbInInitLooksForSync := by
  intro b s hs
  rw [exec_rxb (rxStep_init hs), rxInit_eq]
  rfl

/-- Settles O13: the statement is the rule of `Sync1`. -/
theorem rxbInSync1StartsAFrame : Obligations.RxbInSync1StartsAFrame :=
  fun _ _ hs => exec_rxb (rxStep_sync1 hs)

/-- Settles O14: the two sums are those of `addByte`. -/
theorem rxbLatchesTheHeader : Obligations.RxbLatchesTheHeader := by
  intro b s x ha hb
  obtain rfl := eq_addByte ha hb
  exact ⟨fun hs => exec_rxb (rxStep_cls hs), fun hs => exec_rxb (rxStep_id hs), fun hs => exec_rxb (rxStep_len1 hs)⟩

/-- Settles O15: the length is the one `len16` assembles, and the three ways on are those of `afterLength`. -/
theorem rxbInLen2ChecksTheLength : Obligations.RxbInLen2ChecksTheLength := by
  intro b s x len hs ha hb hlen
  obtain rfl := eq_addByte ha hb
  obtain rfl := eq_len16 hlen
  exact exec_rxb (rxStep_len2 hs)

/-- Settles O16: the offset is below 1000, so that it does not wrap and the write is within the buffer. -/
theorem rxbInDataAppendsToThePayload : Obligations.RxbInDataAppendsToThePayload := by
  intro b s x hs hlt hmax ha hb
  obtain rfl := eq_addByte ha hb
  have hofs : s.p.ofs.toNat < Config.maxLen := hlt.trans_le hmax
  refine ⟨(rxData b s.p).buf, (rxData b s.p).ofs, rxData_ofs hofs, fun k => ?_, exec_rxb (rxStep_data hs)⟩
  simp [rxData, read_bufWrite, hofs]

/-- Settles O17: the statement is the rule of `Crc1`. -/
theorem rxbInCrc1LatchesCka : Obligations.RxbInCrc1LatchesCka :=
  fun _ _ hs => exec_rxb (rxStep_crc1 hs)

/-- Settles O18: the first three clauses are the three ways a frame can end, the fourth is where RXB faults. -/
theorem rxbInCrc2EndsTheFrame : Obligations.RxbInCrc2EndsTheFrame := by
  intro b s hs good admitted full count
  refine ⟨fun hgood hadm hroom => ?queued, fun hgood hrej => ?dropped, fun hbad hroom => ?sentinel,
    fun hfull hadm => ?fault⟩
  case queued => exact exec_rxb ((rxStep_crc2 hs).trans (rxCrc2_admitted hgood hadm hroom))
  case dropped => exact exec_rxb ((rxStep_crc2 hs).trans (rxCrc2_dropped hgood hrej))
  case sentinel => exact exec_rxb ((rxStep_crc2 hs).trans (rxCrc2_mismatch hbad hroom))
  case fault => exact exec_rxb_fault_iff.mpr ⟨⟨hs, hfull, hadm⟩, rfl⟩

/-- Settles O19: with room a transition succeeds in every state, and none writes the filter. -/
theorem rxbCompletesInEveryState : Obligations.RxbCompletesInEveryState := by
  refine fun b s => ⟨decode_encode (i := .rxb b) rfl, fun hroom => ?_⟩
  obtain ⟨q, hq⟩ := rxStep_ok_of_room (b := b) hroom
  exact ⟨_, exec_rxb hq, rfl, rfl, rfl, rfl, rfl, rfl, rxStep_filter hq⟩

/-- R111: RXB is the one command that can fault. -/
theorem exec_ne_fault {i : Instr} (hi : ∀ b, i ≠ .rxb b) {s : State} {f : Fault} : exec i s ≠ .fault f := by
  cases i with
  | rxb b => exact absurd rfl (hi b)
  | enc id payload =>
    simp only [exec, execEnc]
    split
    · simp
    · exact emit_ne_fault
  | filts ids =>
    simp only [exec, execFilts]
    split
    · simp
    · exact emit_ne_fault
  | qpop =>
    simp only [exec, execQpop]
    split <;> exact emit_ne_fault
  | ckrst | ckadd | ckval | ckmat | prst | filt | qclr | frcnt => exact emit_ne_fault

/-- Settles O41: no command but RXB faults, and `exec_rxb_fault_iff` says where RXB does. -/
theorem commandsFaultOnFifoOverflowOnly : Obligations.CommandsFaultOnFifoOverflowOnly := by
  intro i s f
  cases i with
  | rxb b => simpa using exec_rxb_fault_iff
  | ckrst | ckadd | ckval | ckmat | enc | prst | filt | filts | qclr | qpop | frcnt => simp [exec_ne_fault]

end Sys2Proof.Machine
end

section
/-! PROOFS. Byte sequences through the parser: the four outcomes of a candidate frame (R99), and the way back to `Init`
from any state (R98). -/

namespace Sys2Proof.Machine

/-! ### Candidate frames (R99) -/

/-- R65: RXFEED of a concatenation is the one RXFEED followed by the other. -/
theorem rxFeed_append (x y : List Byte) : rxFeed (x ++ y) = rxFeed x ++ rxFeed y := List.map_append

section Candidates

variable {cfg : Config} {c i lL lH xA xB : Byte} {payload : List Byte} {p q : Parser}

/-- R90: from `Init` a header with a length over MAX_LEN leads back to `Init`, and nothing that outlives a frame is
touched. -/
theorem rxBytes_header_oversize (hs : p.state = .init) (hlen : Config.maxLen < (len16 lL lH).toNat) :
    ∃ q, rxBytes cfg [Config.sync1, Config.sync2, c, i, lL, lH] p = .ok q ∧ q.state = .init ∧ p.SameQueues q := by
  refine ⟨_, rxBytes_header hs, ?_⟩
  rw [afterLength_oversize hlen]
  exact ⟨rfl, rfl, rfl, rfl⟩

/-- R84 to R93: from `Init` a whole candidate frame of legal length is received, and its last byte is compared. -/
theorem rxBytes_candidate (hs : p.state = .init) (hlen : payload.length = (len16 lL lH).toNat)
    (hmax : (len16 lL lH).toNat ≤ Config.maxLen) :
    ∃ q, rxBytes cfg ([Config.sync1, Config.sync2, c, i, lL, lH] ++ payload ++ [xA, xB]) p = rxCrc2 cfg xB q ∧
      p.Received c i lL lH payload q ∧ q.rxA = xA := by
  obtain ⟨q, hq, hreceived, hcrc1⟩ := rxBytes_body (cfg := cfg) (c := c) (i := i) hs hlen hmax
  exact ⟨rxCrc1 xA q, (rxBytes_append hq _).trans (rxBytes_cksum hcrc1), hreceived.rxCrc1 xA, rfl⟩

/-- R94: a received frame whose checksum does not match queues the sentinel and is not counted. -/
theorem rxCrc2_bad (h : p.Received c i lL lH payload q) (hck : ¬(q.ck.a = q.rxA ∧ q.ck.b = xB))
    (hroom : cfg.fifoDepth ≠ some p.fifo.length) :
    ∃ r, rxCrc2 cfg xB q = .ok r ∧ r.state = .init ∧ r.filter = p.filter ∧ r.fifo = p.fifo ++ [sentinel] ∧
      r.frc = p.frc := by
  obtain ⟨hfilter, hfifo, hfrc⟩ := h.queues
  exact ⟨_, rxCrc2_mismatch hck (hfifo ▸ hroom), rfl, hfilter, congrArg (· ++ [sentinel]) hfifo, hfrc⟩

/-- R94: a received frame is good where the checksum of what was received is the pair of the last two bytes. -/
theorem Parser.Received.matches_iff (h : p.Received c i lL lH payload q) (hxA : q.rxA = xA) :
    (q.ck.a = q.rxA ∧ q.ck.b = xB) ↔ feed ⟨0, 0⟩ ([c, i, lL, lH] ++ payload) = ⟨xA, xB⟩ := by
  rw [← h.ck, hxA]
  constructor
  · rintro ⟨rfl, rfl⟩
    rfl
  · intro hck
    simp [hck]

end Candidates

/-- R65, R106: RXFEED writes nothing outside the parser, and leaves the parser its bytes leave. -/
theorem runCommands_rxFeed_sameOutside {s : State} {bs : List Byte} {q : Parser} (hfault : s.fault = none)
    (hq : rxBytes s.cfg bs s.p = .ok q) (hfilter : q.filter = s.p.filter) :
    ∃ t, runCommands (rxFeed bs) s = .next t ∧ t.p = q ∧ SameOutsideFrame s t :=
  ⟨_, runCommands_rxFeed hfault hq, rfl, rfl, rfl, rfl, rfl, rfl, hfilter⟩

/-- Settles O23: the header decides whether the frame is abandoned (`rxBytes_header_oversize`) or received
(`rxBytes_candidate`), and the checksum and the filter decide how a received one ends. -/
theorem candidateFrameOutcomes : Obligations.CandidateFrameOutcomes := by
  intro s c i lL lH xA xB payload hs hfault header len ck admitted room whole
  have hlen16 : (len16 lL lH).toNat = len := len16_toNat lL lH
  constructor
  · intro hover
    obtain ⟨q, hq, hinit, hqueues⟩ := rxBytes_header_oversize (cfg := s.cfg) (c := c) (i := i) hs (hlen16 ▸ hover)
    obtain ⟨t, hrun, rfl, hsame⟩ := runCommands_rxFeed_sameOutside hfault hq hqueues.filter
    refine ⟨t, hrun, hinit, hqueues.fifo, hqueues.frc, hsame, fun rest => ?_⟩
    rw [rxFeed_append]
    exact runCommands_append hrun _
  · intro hmax hpayload
    obtain ⟨q, hq, hreceived, hxA⟩ := rxBytes_candidate (cfg := s.cfg) (c := c) (i := i) (xA := xA) (xB := xB) hs
      (hpayload.trans hlen16.symm) (hlen16.trans_le hmax)
    have hgood : (q.ck.a = q.rxA ∧ q.ck.b = xB) ↔ ck = ⟨xA, xB⟩ := hreceived.matches_iff hxA
    have hadmits : filterAdmits s.p.filter ⟨c, i⟩ = true ↔ admitted := filterAdmits_iff _ _
    refine ⟨fun hck hadm hroom => ?queued, fun hck hrej => ?dropped, fun hck hroom => ?sentinel⟩
    case queued =>
      obtain ⟨r, hr, hafter⟩ := rxCrc2_good hreceived (hgood.mpr hck) fun _ => hroom
      obtain ⟨t, hrun, rfl, hsame⟩ := runCommands_rxFeed_sameOutside hfault (hq.trans hr) hafter.filter
      exact ⟨t, hrun, hafter.state, by simp [hafter.fifo, hadmits.mpr hadm], hafter.frc, hsame⟩
    case dropped =>
      obtain ⟨r, hr, hafter⟩ := rxCrc2_good hreceived (hgood.mpr hck) fun h => absurd (hadmits.mp h) hrej
      obtain ⟨t, hrun, rfl, hsame⟩ := runCommands_rxFeed_sameOutside hfault (hq.trans hr) hafter.filter
      exact ⟨t, hrun, hafter.state, by simp [hafter.fifo, mt hadmits.mp hrej], hafter.frc, hsame⟩
    case sentinel =>
      obtain ⟨r, hr, hinit, hfilter, hfifo, hfrc⟩ := rxCrc2_bad hreceived (mt hgood.mp hck) hroom
      obtain ⟨t, hrun, rfl, hsame⟩ := runCommands_rxFeed_sameOutside hfault (hq.trans hr) hfilter
      exact ⟨t, hrun, hinit, hfifo, hfrc, hsame⟩

/-! ### Resynchronisation (R98) -/

/-- R98: as many bytes bring the parser back to `Init`, if the length still to come is MAX_LEN. -/
def Parser.bytesToInit (p : Parser) : Nat :=
  match p.state with
  | .init => 0
  | .sync1 => Config.maxLen + 7
  | .cls => Config.maxLen + 6
  | .id => Config.maxLen + 5
  | .len1 => Config.maxLen + 4
  | .len2 => Config.maxLen + 3
  | .data => p.len.toNat - p.ofs.toNat + 2
  | .crc1 => 2
  | .crc2 => 1

section Resynchronisation

variable {cfg : Config} {b : Byte} {bs : List Byte} {p q : Parser}

theorem bytesToInit_rxSync1 (hs : p.state = .sync1) : (rxSync1 b p).bytesToInit < p.bytesToInit := by
  by_cases hb : b = Config.sync2
  · simp [hb, rxSync1_sync2, Parser.bytesToInit, hs]
  · simp [rxSync1_other hb, Parser.bytesToInit, hs]

/-- R89: the payload that follows has at most MAX_LEN bytes. -/
theorem bytesToInit_rxLen2 (hs : p.state = .len2) : (rxLen2 b p).bytesToInit < p.bytesToInit := by
  unfold rxLen2
  by_cases h0 : (len16 p.lenLo b).toNat = 0
  · simp [afterLength_zero h0, Parser.bytesToInit, hs]
  · by_cases hmax : Config.maxLen < (len16 p.lenLo b).toNat
    · simp [afterLength_oversize hmax, Parser.bytesToInit, hs]
    · rw [afterLength_payload h0 (Nat.not_lt.mp hmax)]
      simp only [Parser.bytesToInit, hs]
      have hzero : (0 : U16).toNat = 0 := rfl
      omega

/-- R91: the offset comes one byte nearer to the length. -/
theorem bytesToInit_rxData (hs : p.state = .data) (hinv : p.FrameInv) :
    (rxData b p).bytesToInit < p.bytesToInit := by
  obtain ⟨-, hmax, hlt⟩ := hinv.data hs
  have hofs : (rxData b p).ofs.toNat = p.ofs.toNat + 1 := rxData_ofs (by omega)
  have hleft : p.bytesToInit = p.len.toNat - p.ofs.toNat + 2 := by simp [Parser.bytesToInit, hs]
  by_cases hend : p.ofs + 1#16 = p.len
  · have hs' : (rxData b p).state = .crc1 := if_pos hend
    simp only [Parser.bytesToInit, hs'] at hleft ⊢
    omega
  · have hs' : (rxData b p).state = .data := if_neg hend
    have hlen : (rxData b p).len = p.len := rfl
    simp only [Parser.bytesToInit, hs', hlen] at hleft ⊢
    omega

/-- R94: the last byte of a frame leads to `Init`. -/
theorem rxStep_crc2_init (hs : p.state = .crc2) (h : rxStep cfg b p = .ok q) : q.state = .init := by
  rw [rxStep_crc2 hs] at h
  obtain ⟨-, -, -, rfl⟩ | ⟨-, -, rfl⟩ | ⟨-, -, rfl⟩ := rxCrc2_ok h <;> rfl

/-- R98: outside `Init` every byte brings the parser nearer to `Init`. -/
theorem bytesToInit_rxStep (hinit : p.state ≠ .init) (hinv : p.FrameInv) (h : rxStep cfg b p = .ok q) :
    q.bytesToInit < p.bytesToInit := by
  cases hs : p.state with
  | init => exact absurd hs hinit
  | sync1 => exact rxStep_ok_unique (rxStep_sync1 hs) h ▸ bytesToInit_rxSync1 hs
  | cls => exact rxStep_ok_unique (rxStep_cls hs) h ▸ by simp [rxClass, Parser.bytesToInit, hs]
  | id => exact rxStep_ok_unique (rxStep_id hs) h ▸ by simp [rxId, Parser.bytesToInit, hs]
  | len1 => exact rxStep_ok_unique (rxStep_len1 hs) h ▸ by simp [rxLen1, Parser.bytesToInit, hs]
  | len2 => exact rxStep_ok_unique (rxStep_len2 hs) h ▸ bytesToInit_rxLen2 hs
  | data => exact rxStep_ok_unique (rxStep_data hs) h ▸ bytesToInit_rxData hs hinv
  | crc1 => exact rxStep_ok_unique (rxStep_crc1 hs) h ▸ by simp [rxCrc1, Parser.bytesToInit, hs]
  | crc2 => simp [Parser.bytesToInit, hs, rxStep_crc2_init hs h]

/-- R98: only in `Init` no byte is needed. -/
theorem state_of_bytesToInit_eq_zero (h : p.bytesToInit = 0) : p.state = .init := by
  unfold Parser.bytesToInit at h
  split at h
  · assumption
  all_goals simp at h

/-- R98, R30: 1007 bytes are needed at most, and 1006 from `Class`. -/
theorem bytesToInit_le (hinv : p.FrameInv) : p.bytesToInit ≤ if p.state = .cls then 1006 else 1007 := by
  cases hs : p.state with
  | data =>
    obtain ⟨-, hmax, -⟩ := hinv.data hs
    rw [if_neg (by simp)]
    simp only [Parser.bytesToInit, hs, Config.maxLen] at hmax ⊢
    omega
  | init | sync1 | cls | id | len1 | len2 | crc1 | crc2 => simp [Parser.bytesToInit, hs, Config.maxLen]

/-- R98: `bytesToInit` bytes are enough, if the FIFO has room for the packet the frame in progress may queue. -/
theorem rxBytes_reaches_init (hinv : p.FrameInv) (hroom : p.state ≠ .init → cfg.fifoDepth ≠ some p.fifo.length)
    (hlen : p.bytesToInit ≤ bs.length) :
    ∃ k q, k ≤ bs.length ∧ rxBytes cfg (bs.take k) p = .ok q ∧ q.state = .init := by
  induction bs generalizing p with
  | nil => exact ⟨0, p, Nat.zero_le _, rfl, state_of_bytesToInit_eq_zero (Nat.le_zero.mp hlen)⟩
  | cons b bs ih =>
    by_cases hinit : p.state = .init
    · exact ⟨0, p, Nat.zero_le _, rfl, hinit⟩
    · obtain ⟨q, hq⟩ := rxStep_ok_of_room (b := b) fun _ => hroom hinit
      have hroom' : q.state ≠ .init → cfg.fifoDepth ≠ some q.fifo.length := by
        intro hqs
        have hs : p.state ≠ .crc2 := fun hs => hqs (rxStep_crc2_init hs hq)
        rw [(rxStep_sameQueues hs hq).fifo]
        exact hroom hinit
      have hnearer : q.bytesToInit < p.bytesToInit := bytesToInit_rxStep hinit hinv hq
      have hlen' : q.bytesToInit ≤ bs.length := Nat.le_of_lt_succ (hnearer.trans_le hlen)
      obtain ⟨k, r, hk, hr, hrs⟩ := ih (rxStep_frameInv hinv hq) hroom' hlen'
      exact ⟨k + 1, r, Nat.succ_le_succ hk, (rxBytes_cons hq).trans hr, hrs⟩

end Resynchronisation

/-- Settles O21: `rxBytes_reaches_init` with the bound of `bytesToInit_le`. -/
theorem parserResynchronises : Obligations.ParserResynchronises := by
  intro s bs hinv hfault hroom _ hlen
  obtain ⟨k, q, hk, hq, hinit⟩ := rxBytes_reaches_init hinv.frame (fun _ => hroom)
    ((bytesToInit_le hinv.frame).trans_eq hlen.symm)
  exact ⟨k, _, hk, runCommands_rxFeed hfault hq, hinit⟩

end Sys2Proof.Machine
end

section
/-! PROOFS. The parser's effect depends on the bytes fed and the parser's own commands alone (R97). -/

namespace Sys2Proof.Machine

/-! ### One run after another -/

/-- What follows an outcome: it goes on from a next state, and a fault or a refusal ends the run (R124). -/
def andThen (o : Host.Outcome State Fault Refusal) (k : State → Host.Outcome State Fault Refusal) :
    Host.Outcome State Fault Refusal :=
  match o with
  | .next t => k t
  | .fault f => .fault f
  | .refused r => .refused r

theorem andThen_assoc (o : Host.Outcome State Fault Refusal) (k l : State → Host.Outcome State Fault Refusal) :
    andThen (andThen o k) l = andThen o fun s => andThen (k s) l := by
  cases o <;> rfl

/-- R124: a run is its first command and what follows that. -/
theorem runCommands_cons_andThen (i : Instr) (is : List Instr) (s : State) :
    runCommands (i :: is) s = andThen (issue i s) (runCommands is) := rfl

/-- R124: a run of two command sequences is the one run after the other, whatever the first ends in. -/
theorem runCommands_append_andThen (is js : List Instr) (s : State) :
    runCommands (is ++ js) s = andThen (runCommands is s) (runCommands js) := by
  induction is generalizing s with
  | nil => rfl
  | cons i is ih => rw [List.cons_append, runCommands_cons_andThen, runCommands_cons_andThen, andThen_assoc, funext ih]

/-- The host's run of the machine behind its interface, typed as the model's own outcome. -/
def runSteps (k : Nat) : State → Host.Outcome State Fault Refusal := Host.Core.run core k

theorem runSteps_succ (k : Nat) (s : State) : runSteps (k + 1) s = andThen (step s) (runSteps k) := by
  simp only [runSteps, Host.Core.run, Host.Check.core_step]
  cases step s <;> rfl

/-- Steps of the machine in two parts. -/
theorem runSteps_add (m n : Nat) (s : State) : runSteps (m + n) s = andThen (runSteps m s) (runSteps n) := by
  induction m generalizing s with
  | zero =>
    rw [Nat.zero_add]
    rfl
  | succ m ih => rw [Nat.succ_add, runSteps_succ, runSteps_succ, andThen_assoc, funext ih]

/-! ### RXFEED where a transition fails -/

/-- R95, R97: RXFEED faults where the transitions fail. -/
theorem runCommands_rxFeed_error {s : State} {bs : List Byte} {r : FaultReason} (hfault : s.fault = none)
    (h : rxBytes s.cfg bs s.p = .error r) : ∃ u, runCommands (rxFeed bs) s = .fault (.fifoOverflow u) := by
  induction bs generalizing s with
  | nil => cases h
  | cons b bs ih =>
    cases hb : rxStep s.cfg b s.p with
    | error r =>
      have hissue : issue (.rxb b) s = .fault (.fifoOverflow (s.setFault .fifoOverflow)) :=
        (issue_of_no_fault hfault).trans (execRxb_error hb)
      exact ⟨_, by rw [rxFeed, List.map_cons, runCommands, hissue]⟩
    | ok q =>
      rw [rxBytes_cons hb] at h
      rw [rxFeed, List.map_cons, runCommands_cons hfault (exec_rxb hb)]
      exact ih (s := { s with p := q, responses := s.responses ++ [[]] }) hfault h

/-! ### The commands of the other units -/

section OtherUnits

variable {i : Instr} {s t u : State}

/-- No command that completes writes the fault (R111). -/
theorem exec_next_fault (h : exec i s = .next t) : t.fault = s.fault := by
  obtain ⟨x, p, r, rfl, -⟩ := exec_next h
  rfl

/-- R97, R106: a well-formed command of the checksum unit or the encoder completes and leaves the parser alone. -/
theorem exec_other_unit (hwf : i.wf = true) (h : isPsrCommand i = false) (s : State) :
    ∃ t, exec i s = .next t ∧ t.p = s.p := by
  cases i with
  | ckrst | ckadd | ckval | ckmat => exact ⟨_, rfl, rfl⟩
  | enc id payload => exact ⟨_, exec_enc id (of_decide_eq_true hwf) s, rfl⟩
  | rxb | prst | filt | filts | qclr | qpop | frcnt => cases h

/-- R97: what a command of the parser does to the parser depends on the parameters and the parser alone. -/
theorem exec_sameParser (hpsr : isPsrCommand i = true) (hcfg : s.cfg = t.cfg) (hp : s.p = t.p) :
    SameParser (exec i s) (exec i t) := by
  cases i with
  | rxb b =>
    cases hb : rxStep s.cfg b s.p with
    | ok q =>
      rw [exec_rxb hb, exec_rxb (hcfg ▸ hp ▸ hb)]
      exact rfl
    | error r =>
      show SameParser (execRxb b s) (execRxb b t)
      rw [execRxb_error hb, execRxb_error (hcfg ▸ hp ▸ hb)]
      exact hp
  | prst => exact congrArg (·.setState .init) hp
  | filt id => exact congrArg (·.setFilter [id]) hp
  | filts ids =>
    simp only [exec, execFilts, ← hcfg]
    split
    · exact rfl
    · exact congrArg (·.setFilter (filterOfList ids)) hp
  | qclr => exact congrArg (·.setFifo []) hp
  | qpop =>
    simp only [exec, execQpop, ← hp]
    split
    · exact hp
    · exact rfl
  | frcnt => exact hp
  | ckrst | ckadd | ckval | ckmat | enc => cases hpsr

/-- Outcomes with one parser are of one kind. -/
theorem SameParser.cases {o o' : Host.Outcome State Fault Refusal} (h : SameParser o o') :
    (∃ s t, o = .next s ∧ o' = .next t ∧ s.p = t.p) ∨
    (∃ s t, o = .fault (.fifoOverflow s) ∧ o' = .fault (.fifoOverflow t) ∧ s.p = t.p) ∨
    (∃ r, o = .refused r ∧ o' = .refused r) := by
  unfold SameParser at h
  split at h
  · exact .inl ⟨_, _, rfl, rfl, h⟩
  · exact .inr (.inl ⟨_, _, rfl, rfl, h⟩)
  · exact .inr (.inr ⟨_, rfl, h ▸ rfl⟩)
  · exact h.elim

/-- R97: the commands of the other units between the parser's own make no difference to the parser. -/
theorem runCommands_sameParser {is : List Instr} (hwf : ∀ i ∈ is, i.wf = true) (hcfg : s.cfg = t.cfg) (hp : s.p = t.p)
    (hs : s.fault = none) (ht : t.fault = none) :
    SameParser (runCommands is s) (runCommands (is.filter isPsrCommand) t) := by
  induction is generalizing s t with
  | nil => exact hp
  | cons i is ih =>
    obtain ⟨hwfi, hwfis⟩ := List.forall_mem_cons.mp hwf
    cases hpsr : isPsrCommand i with
    | false =>
      obtain ⟨u, hu, hup⟩ := exec_other_unit hwfi hpsr s
      rw [List.filter_cons_of_neg (by simp [hpsr]), runCommands_cons hs hu]
      exact ih hwfis ((exec_cfg hu).trans hcfg) (hup.trans hp) ((exec_next_fault hu).trans hs) ht
    | true =>
      rw [List.filter_cons_of_pos hpsr, runCommands, runCommands, issue_of_no_fault hs, issue_of_no_fault ht]
      obtain ⟨u, v, hu, hv, huv⟩ | ⟨u, v, hu, hv, huv⟩ | ⟨r, hu, hv⟩ := (exec_sameParser hpsr hcfg hp).cases
      · rw [hu, hv]
        exact ih hwfis (by rw [exec_cfg hu, exec_cfg hv, hcfg]) huv ((exec_next_fault hu).trans hs)
          ((exec_next_fault hv).trans ht)
      · rw [hu, hv]
        exact huv
      · rw [hu, hv]
        exact rfl

end OtherUnits

/-! ### Reads of the host -/

/-- The host appends bytes to those still pending (log entry 1). -/
def State.pend (rest : List Byte) (s : State) : State := s.setCommands (s.commands ++ rest)

section Reads

variable {i : Instr} {s t : State}

/-- R60: bytes behind a command do not change what it decodes to. -/
theorem decode_append {bs r : List Byte} (h : decode bs = .ok (i, r)) (rest : List Byte) :
    decode (bs ++ rest) = .ok (i, r ++ rest) := by
  obtain ⟨hwf, rfl⟩ := encode_of_decode h
  rw [List.append_assoc]
  exact decode_encode hwf _

/-- R38: bytes pending behind a whole command do not change its step; they stay pending, also where it faults
(log entry 7). -/
theorem step_pend {r : List Byte} (hreset : s.resetIn = false) (h : decode s.commands = .ok (i, r))
    (rest : List Byte) : step (s.pend rest) = mapOutcome (State.pend rest) (step s) := by
  rw [step_of_fetch_command hreset (fetch_of_decode h),
    step_of_fetch_command (s := s.pend rest) hreset (fetch_of_decode (decode_append h rest))]
  cases hf : s.fault with
  | some e =>
    rw [unlessFaulted_some hf, unlessFaulted_some (s := s.pend rest) hf]
    rfl
  | none =>
    rw [unlessFaulted_none hf, unlessFaulted_none (s := s.pend rest) hf, State.pend, exec_setCommands]
    cases hexec : exec i s with
    | next u => rfl
    | fault f =>
      rw [exec_fault hexec]
      rfl
    | refused e => rfl

/-- R38: a step that executes the decoded command leaves the bytes after it. -/
theorem step_next_of_decode {r : List Byte} (hreset : s.resetIn = false) (h : decode s.commands = .ok (i, r))
    (hstep : step s = .next t) : t.commands = r ∧ t.resetIn = false := by
  obtain ⟨hr, -⟩ | ⟨-, -, hidle, -⟩ | ⟨-, -, j, rest, u, hj, hexec, rfl⟩ := step_next hstep
  · simp [hreset] at hr
  · simp [h] at hidle
  · rw [h] at hj
    cases hj
    exact ⟨rfl, (exec_resetIn hexec).trans hreset⟩

/-- R38, R97: bytes pending behind a sequence of commands do not change what as many steps do. -/
theorem runSteps_pend {is : List Instr} (hwf : ∀ i ∈ is, i.wf = true) (hreset : s.resetIn = false)
    (h : s.commands = encodeAll is) (rest : List Byte) :
    runSteps is.length (s.pend rest) = mapOutcome (State.pend rest) (runSteps is.length s) := by
  induction is generalizing s with
  | nil => rfl
  | cons i is ih =>
    obtain ⟨hwfi, hwfis⟩ := List.forall_mem_cons.mp hwf
    have hdecode : decode s.commands = .ok (i, encodeAll is) := by
      rw [h]
      exact decode_encode hwfi _
    rw [List.length_cons, runSteps_succ, runSteps_succ, step_pend hreset hdecode]
    cases hstep : step s with
    | next u =>
      obtain ⟨hu, hureset⟩ := step_next_of_decode hreset hdecode hstep
      exact ih hwfis hureset hu
    | fault f =>
      cases f
      rfl
    | refused e => rfl

/-- R65: RXFEED has a command for each byte, all of them well-formed. -/
theorem rxFeed_wf (bs : List Byte) : ∀ i ∈ rxFeed bs, i.wf = true := by
  simp [rxFeed, Instr.wf]

@[simp] theorem length_rxFeed (bs : List Byte) : (rxFeed bs).length = bs.length := List.length_map _

/-- R55: the byte stream of two command sequences. -/
theorem encodeAll_append (is js : List Instr) : encodeAll (is ++ js) = encodeAll is ++ encodeAll js := by
  induction is with
  | nil => rfl
  | cons i is ih => simp [encodeAll, ih]

/-- R97: a read of the host is a step for each byte it puts behind those pending. -/
theorem handOver_eq (bs : List Byte) (s : State) :
    handOver bs s = runSteps bs.length (s.pend (encodeAll (rxFeed bs))) := rfl

/-- R97: two reads are one, unless the first faults: then the bytes of the second stand behind those pending. -/
theorem handOver_append (x y : List Byte) (hreset : s.resetIn = false) (hidle : s.commands = []) :
    handOver (x ++ y) s =
      andThen (mapOutcome (State.pend (encodeAll (rxFeed y))) (handOver x s)) (runSteps y.length) := by
  have hpend : s.pend (encodeAll (rxFeed (x ++ y))) = (s.pend (encodeAll (rxFeed x))).pend (encodeAll (rxFeed y)) := by
    simp [State.pend, State.setCommands, rxFeed_append, encodeAll_append]
  have hfirst : (s.pend (encodeAll (rxFeed x))).commands = encodeAll (rxFeed x) := by simp [State.pend, hidle]
  have hrun := runSteps_pend (s := s.pend (encodeAll (rxFeed x))) (rxFeed_wf x) hreset hfirst (encodeAll (rxFeed y))
  rw [length_rxFeed] at hrun
  rw [handOver_eq, List.length_append, runSteps_add, hpend, handOver_eq, hrun]

end Reads

/-- Settles O20: runs of commands append, RXFEED folds the transition, the parser's commands read the parameters and the
parser alone, and a read only puts bytes behind those pending. -/
theorem parserStreamingEquivalence : Obligations.ParserStreamingEquivalence := by
  refine ⟨fun x y s => ?append, fun bs s hfault => ?fold, fun is s t => ?others, fun x y s hreset _ hidle => ?reads⟩
  case append =>
    rw [rxFeed_append, runCommands_append_andThen]
    rfl
  case fold =>
    show match rxBytes s.cfg bs s.p with | .ok q => _ | .error _ => _
    split
    · next hq => exact runCommands_rxFeed hfault hq
    · next hr => exact runCommands_rxFeed_error hfault hr
  case others => exact runCommands_sameParser
  case reads =>
    rw [handOver_append x y hreset hidle]
    cases handOver x s with
    | next t => rfl
    | fault f =>
      cases f
      rfl
    | refused r => rfl

end Sys2Proof.Machine
end

section
/-! PROOFS. The parser's control commands (R100 to R105), and the matrix of R106: which columns a command writes and
reads. -/

namespace Sys2Proof.Machine

/-! ### The columns of the matrix (R106) -/

section Columns

variable {c : Column} (src s : State)

theorem copyColumn_self (c : Column) : copyColumn c s s = s := by
  cases c <;> rfl

/-- The responses stand in no column. -/
@[simp] theorem copyColumn_addResponse (r : List Byte) :
    copyColumn c src (s.addResponse r) = (copyColumn c src s).addResponse r := by
  cases c <;> rfl

/-- The parameters stand in no column. -/
@[simp] theorem copyColumn_cfg : (copyColumn c src s).cfg = s.cfg := by
  cases c <;> rfl

@[simp] theorem copyColumn_ck_of_ne (h : c ≠ .ck) : (copyColumn c src s).ck = s.ck := by
  cases c with
  | ck => exact absurd rfl h
  | state | frame | filter | fifo | frc => rfl

@[simp] theorem copyColumn_fifo_of_ne (h : c ≠ .fifo) : (copyColumn c src s).p.fifo = s.p.fifo := by
  cases c with
  | fifo => exact absurd rfl h
  | ck | state | frame | filter | frc => rfl

@[simp] theorem copyColumn_frc_of_ne (h : c ≠ .frc) : (copyColumn c src s).p.frc = s.p.frc := by
  cases c with
  | frc => exact absurd rfl h
  | ck | state | frame | filter | fifo => rfl

@[simp] theorem copyColumn_setCk (h : c ≠ .ck) (x : Cksum) :
    copyColumn c src (s.setCk x) = (copyColumn c src s).setCk x := by
  cases c with
  | ck => exact absurd rfl h
  | state | frame | filter | fifo | frc => rfl

@[simp] theorem copyColumn_setState (h : c ≠ .state) (x : ParserState) :
    copyColumn c src (s.setP (s.p.setState x)) =
      (copyColumn c src s).setP ((copyColumn c src s).p.setState x) := by
  cases c with
  | state => exact absurd rfl h
  | ck | frame | filter | fifo | frc => rfl

@[simp] theorem copyColumn_setFilter (h : c ≠ .filter) (f : List MessageId) :
    copyColumn c src (s.setP (s.p.setFilter f)) =
      (copyColumn c src s).setP ((copyColumn c src s).p.setFilter f) := by
  cases c with
  | filter => exact absurd rfl h
  | ck | state | frame | fifo | frc => rfl

@[simp] theorem copyColumn_setFifo (h : c ≠ .fifo) (q : List Packet) :
    copyColumn c src (s.setP (s.p.setFifo q)) =
      (copyColumn c src s).setP ((copyColumn c src s).p.setFifo q) := by
  cases c with
  | fifo => exact absurd rfl h
  | ck | state | frame | filter | frc => rfl

theorem copyColumn_ck_eq_self {s t : State} (h : t.ck = s.ck) : copyColumn .ck s t = t := by
  simp [copyColumn, ← h]

theorem copyColumn_filter_eq_self {s t : State} (h : t.p.filter = s.p.filter) : copyColumn .filter s t = t := by
  simp [copyColumn, ← h]

end Columns

/-! ### The write matrix (R106) -/

section Writes

variable {i : Instr} {c : Column} {s t : State}

/-- R106: a command that does not write `CK` leaves it alone. -/
theorem exec_ck (h : exec i s = .next t) (hc : .ck ∉ writes i) : t.ck = s.ck := by
  obtain ⟨x, p, r, rfl, heffect⟩ := exec_next h
  cases i with
  | ckrst | ckadd => simp [writes] at hc
  | ckval | ckmat | enc | rxb | prst | filt | filts | qclr | qpop | frcnt => exact heffect.1

/-- R106: what a command does to the parser stays within the columns it writes. -/
theorem ParserEffect.keeps_column {q : Parser} (h : ParserEffect s i q) (hc : c ∉ writes i) :
    copyColumn c s (s.setP q) = s.setP q := by
  cases h with
  | untouched => exact copyColumn_self s c
  | received hrx =>
    cases c with
    | ck => rfl
    | filter => exact copyColumn_filter_eq_self (rxStep_filter hrx)
    | state | frame | fifo | frc => simp [writes] at hc
  | restarted => rw [copyColumn_setState _ _ (by simpa [writes] using hc), copyColumn_self]
  | oneMember | members => rw [copyColumn_setFilter _ _ (by simpa [writes] using hc), copyColumn_self]
  | cleared | popped => rw [copyColumn_setFifo _ _ (by simpa [writes] using hc), copyColumn_self]

/-- R106: a command that completes leaves every column it does not write alone. -/
theorem exec_keeps_column (h : exec i s = .next t) (hc : c ∉ writes i) : copyColumn c s t = t := by
  by_cases hck : c = .ck
  · subst hck
    exact copyColumn_ck_eq_self (exec_ck h hc)
  · have heffect := exec_parserEffect h
    obtain ⟨x, p, r, rfl, -⟩ := exec_next h
    have hparser : copyColumn c s (s.setP p) = s.setP p := heffect.keeps_column hc
    show copyColumn c s (((s.setP p).setCk x).addResponse r) = ((s.setP p).setCk x).addResponse r
    rw [copyColumn_addResponse, copyColumn_setCk _ _ hck, hparser]

end Writes

/-- Settles O35: `exec_keeps_column` is the matrix, and by `exec_next` a command replaces the accumulator, the parser
and the responses alone. -/
theorem commandsWriteTheirColumnsOnly : Obligations.CommandsWriteTheirColumnsOnly := by
  intro i s t h
  have hcolumns := fun c => exec_keeps_column (c := c) h
  obtain ⟨x, p, r, rfl, -⟩ := exec_next h
  exact ⟨hcolumns, rfl, rfl, rfl, rfl, r, rfl⟩

/-! ### The read matrix (R106) -/

section Reads

variable {i : Instr} {c : Column} (src s : State)

/-- A response is the same whatever the columns hold. -/
@[simp] theorem mapOutcome_emit (r : List Byte) :
    mapOutcome (copyColumn c src) (emit r s) = emit r (copyColumn c src s) :=
  congrArg Host.Outcome.next (copyColumn_addResponse src s r)

/-- R106: RXB reads every column but `CK`. -/
theorem execRxb_copyColumn_ck (b : Byte) :
    execRxb b (copyColumn .ck src s) = mapOutcome (copyColumn .ck src) (execRxb b s) := by
  cases h : rxStep s.cfg b s.p with
  | ok q =>
    rw [execRxb_ok h, execRxb_ok (s := copyColumn .ck src s) h]
    rfl
  | error r =>
    rw [execRxb_error h, execRxb_error (s := copyColumn .ck src s) h]
    rfl

/-- R106: a column a command neither reads nor writes passes through it. -/
theorem exec_copyColumn_of_not_writes (hr : c ∉ reads i) (hw : c ∉ writes i) :
    exec i (copyColumn c src s) = mapOutcome (copyColumn c src) (exec i s) := by
  cases i with
  | ckrst | ckadd =>
    have hck : c ≠ .ck := by simpa [writes] using hw
    simp [exec, execCkrst, execCkadd, hck]
  | ckval | ckmat =>
    have hck : c ≠ .ck := by simpa [reads] using hr
    simp [exec, execCkval, execCkmat, hck]
  | enc id payload =>
    simp only [exec, execEnc, apply_ite (mapOutcome _), mapOutcome_emit]
    rfl
  | prst =>
    have hstate : c ≠ .state := by simpa [writes] using hw
    simp [exec, execPrst, hstate]
  | filt id =>
    have hfilter : c ≠ .filter := by simpa [writes] using hw
    simp [exec, execFilt, hfilter]
  | filts ids =>
    have hfilter : c ≠ .filter := by simpa [writes] using hw
    simp only [exec, execFilts, apply_ite (mapOutcome _), mapOutcome_emit, copyColumn_cfg,
      copyColumn_setFilter _ _ hfilter]
    rfl
  | qclr =>
    have hfifo : c ≠ .fifo := by simpa [writes] using hw
    simp [exec, execQclr, hfifo]
  | qpop =>
    have hfifo : c ≠ .fifo := by simpa [writes] using hw
    simp only [exec, execQpop, copyColumn_fifo_of_ne _ _ hfifo]
    cases s.p.fifo <;> simp [hfifo]
  | frcnt =>
    have hfrc : c ≠ .frc := by simpa [reads] using hr
    simp [exec, execFrcnt, hfrc]
  | rxb b =>
    cases c with
    | ck => exact execRxb_copyColumn_ck src s b
    | state | frame | filter | fifo | frc => simp [reads] at hr

/-- R106: what a column held makes no difference to a command that writes it and does not read it. -/
theorem exec_copyColumn_of_writes (hr : c ∉ reads i) (hw : c ∈ writes i) :
    exec i (copyColumn c src s) = exec i s := by
  cases i with
  | ckrst | prst | filt | filts | qclr =>
    obtain rfl := List.mem_singleton.mp hw
    rfl
  | ckadd | qpop => exact absurd hw hr
  | ckval | ckmat | enc | frcnt => cases hw
  | rxb b =>
    have hread : writes (.rxb b) ⊆ reads (.rxb b) := by simp [writes, reads]
    exact absurd (hread hw) hr

end Reads

/-- Settles O36, by whether the command writes the column it does not read. -/
theorem commandsReadTheirColumnsOnly : Obligations.CommandsReadTheirColumnsOnly :=
  fun _ _ s other hr => ⟨exec_copyColumn_of_not_writes other s hr, exec_copyColumn_of_writes other s hr⟩

/-! ### The six commands (R100 to R105) -/

/-- Settles O28: what PRST writes does not depend on the state. -/
theorem prstForcesInitAlone : Obligations.PrstForcesInitAlone :=
  ⟨decode_encode (i := .prst) rfl, fun _ => rfl⟩

/-- Settles O29: what FILT writes does not depend on the filter it replaces. -/
theorem filtInstallsOneMember : Obligations.FiltInstallsOneMember :=
  fun id _ => ⟨decode_encode (i := .filt id) rfl, rfl⟩

/-- R56: the operand bytes of FILTS, class before id. -/
theorem idBytes_eq_flatten (ids : List MessageId) : idBytes ids = (ids.map fun m => [m.cls, m.id]).flatten := by
  induction ids with
  | nil => rfl
  | cons m ids ih => simp [idBytes, ih]

/-- R102: FILTS installs a set that fits the slots. -/
theorem exec_filts {ids : List MessageId} {s : State} (h : (filterOfList ids).length ≤ s.cfg.filterSlots) :
    exec (.filts ids) s = answered { s with p := { s.p with filter := filterOfList ids } } [] :=
  if_neg (Nat.not_lt.mpr h)

/-- Settles O30: the set is `filterOfList`, which FILTS installs where it fits and refuses where it does not. -/
theorem filtsInstallsTheSet : Obligations.FiltsInstallsTheSet := by
  intro ids s
  refine ⟨fun hcount rest => ?decodes, filterOfList ids, filterOfList_nodup ids, (mem_filterOfList · ids), exec_filts,
    fun hover => ?refuses⟩
  case decodes =>
    rw [← idBytes_eq_flatten]
    exact decode_encode (i := .filts ids) (decide_eq_true hcount) rest
  case refuses => exact if_pos hover

/-- Settles O32: QCLR leaves an empty FIFO whatever it held. -/
theorem qclrEmptiesTheFifo : Obligations.QclrEmptiesTheFifo :=
  ⟨decode_encode (i := .qclr) rfl, fun _ => rfl⟩

/-- R104: QPOP on an empty FIFO changes nothing. -/
theorem exec_qpop_nil {s : State} (h : s.p.fifo = []) : exec .qpop s = answered s [0x00] := by
  simp [exec, execQpop, h, emit, State.addResponse]

/-- Settles O33, by whether the FIFO is empty; `packetBytes` is the response R59 gives. -/
theorem qpopRemovesTheOldestPacket : Obligations.QpopRemovesTheOldestPacket :=
  ⟨decode_encode (i := .qpop) rfl, fun _ => exec_qpop_nil, fun _ _ _ => exec_qpop_cons⟩

/-- R33, R59: byte `k` of a little-endian field is the bits `8k+7 .. 8k` of its value. -/
theorem leBytes_eq_map_range (n v : Nat) :
    leBytes n v = (List.range n).map fun k => BitVec.ofNat 8 (v / 2 ^ (8 * k)) := by
  induction n generalizing v with
  | zero => rfl
  | succ n ih =>
    have hshift (k : Nat) : v / 256 / 2 ^ (8 * k) = v / 2 ^ (8 * (k + 1)) := by
      rw [Nat.div_div_eq_div_mul, Nat.mul_add_one, Nat.pow_add, Nat.mul_comm]
    simp [leBytes, lo8, ih, hshift, List.range_succ_eq_map]

/-- Settles O34: the response is the counter's little-endian bytes. -/
theorem frcntReadsTheCounter : Obligations.FrcntReadsTheCounter := by
  refine ⟨decode_encode (i := .frcnt) rfl, fun s => ?_⟩
  rw [← leBytes_eq_map_range]
  rfl

end Sys2Proof.Machine
end

section
/-! PROOFS. What one step answers: the order of R114 as one equation for each way it can go, and the faults of R111. -/

namespace Sys2Proof.Machine

section Step

variable {s : State}

/-- R114, R125: RESET comes before everything. -/
theorem step_of_reset (hreset : s.resetIn = true) : step s = .next (applyReset s) := by
  simp [step, stepBy, hreset]

/-- With no command pending, a step does nothing unless a fault stands (log entry 5). -/
theorem step_of_fetch_idle (hreset : s.resetIn = false) (h : fetch s = .idle) :
    step s = unlessFaulted s (.next s) := by
  simp [step, stepBy, hreset, h]

/-- R114.1: without RESET a standing fault is answered whatever the command stream holds, also where its bytes have no
meaning. -/
theorem step_of_standing_fault {r : FaultReason} (hreset : s.resetIn = false) (hfault : s.fault = some r) :
    step s = .fault (.fifoOverflow s) := by
  cases hfetch : fetch s with
  | idle => rw [step_of_fetch_idle hreset hfetch, unlessFaulted_some hfault]
  | bad e => simp [step, stepBy, hreset, hfetch, unlessFaulted_some hfault]
  | command i rest => rw [step_of_fetch_command hreset hfetch, unlessFaulted_some hfault]

theorem consume_fault {rest : List Byte} {o : Host.Outcome State Fault Refusal} {f : Fault}
    (h : consume rest o = .fault f) : o = .fault f := by
  cases o with
  | fault g => exact h
  | next u | refused e => cases h

/-- R111: with no fault recorded, a step that faults executes a command that faults. -/
theorem exec_fault_of_step_fault {f : Fault} (hfault : s.fault = none) (h : step s = .fault f) :
    ∃ i rest, fetch s = .command i rest ∧ exec i s = .fault f := by
  cases hreset : s.resetIn with
  | true => simp [step_of_reset hreset] at h
  | false =>
    cases hfetch : fetch s with
    | idle => simp [step_of_fetch_idle hreset hfetch, unlessFaulted_none hfault] at h
    | bad e => simp [step_of_fetch_bad hreset hfault hfetch] at h
    | command i rest =>
      rw [step_of_fetch_command hreset hfetch, unlessFaulted_none hfault] at h
      exact ⟨i, rest, rfl, consume_fault h⟩

end Step

/-- Settles O43: a step that faults executes a command that faults, and that takes a full FIFO of finite depth (O41). -/
theorem unboundedFifoNeverFaults : Obligations.UnboundedFifoNeverFaults := by
  intro s f hdepth hfault hstep
  obtain ⟨i, rest, -, hexec⟩ := exec_fault_of_step_fault hfault hstep
  obtain ⟨⟨b, -, -, hfull, -⟩, -⟩ := (commandsFaultOnFifoOverflowOnly i s f).mp hexec
  rw [hdepth] at hfull
  cases hfull

/-- Settles O44: the step by `step_of_standing_fault`, an issued command by the same `unlessFaulted`. -/
theorem standingFaultAnswersEveryCommand : Obligations.StandingFaultAnswersEveryCommand :=
  fun _ hfault => ⟨fun hreset => step_of_standing_fault hreset hfault, fun _ => unlessFaulted_some hfault _⟩

end Sys2Proof.Machine
end

section
/-! PROOFS. RESET (R125), and the hazards of the wire (R130, R133, R135): the doubled sync byte, the frame that ENC
builds and the parser drops, and the sentinel's id received in a frame. -/

namespace Sys2Proof.Machine

/-! ### An oversize frame (R133) -/

/-- Settles O26: the length bytes of the encoder give back the length of the payload, so its header is abandoned
(`rxBytes_header_oversize`) and the run goes on with the rest. -/
theorem oversizeEncodedFramesAreDropped : Obligations.OversizeEncodedFramesAreDropped := by
  intro s id payload hs hfault hover hmax
  have hlen : Config.maxLen < (len16 (lo8 payload.length) (hi8 payload.length)).toNat := by
    rwa [len16_lo8_hi8 hmax]
  obtain ⟨q, hq, hinit, hqueues⟩ := rxBytes_header_oversize (cfg := s.cfg) (c := id.cls) (i := id.id) hs hlen
  obtain ⟨t, hheader, rfl, hsame⟩ := runCommands_rxFeed_sameOutside hfault hq hqueues.filter
  exact ⟨t, _, hheader, hinit, hqueues.fifo, hqueues.frc, hsame, rfl, runCommands_append hheader _⟩

/-! ### A doubled sync byte (R130) -/

/-- R84: in `Init` any byte but SYNC1 is skipped. -/
theorem rxInit_of_ne_sync1 {b : Byte} {p : Parser} (hs : p.state = .init) (h : b ≠ Config.sync1) : rxInit b p = p := by
  rw [rxInit_eq, if_neg h, ← hs]
  rfl

/-- R84, R85, R130: from `Init` the bytes B5 B5 62 lead back to `Init` and change nothing: the second B5 is no SYNC2 and
is not looked at again, so that the 62 is skipped. -/
theorem rxBytes_doubled_sync {cfg : Config} {p : Parser} (hs : p.state = .init) :
    rxBytes cfg [Config.sync1, Config.sync1, Config.sync2] p = .ok p := by
  have hne : Config.sync1 ≠ Config.sync2 := by decide
  have hback : (p.setState .sync1).setState .init = p := by
    rw [← hs]
    rfl
  rw [rxBytes_cons (rxStep_init hs), rxInit_sync1, rxBytes_cons (rxStep_sync1 rfl), rxSync1_other hne, hback,
    rxBytes_singleton, rxStep_init hs, rxInit_of_ne_sync1 hs hne.symm]

/-- Settles O25: the run over the three bytes leaves the parser of `rxBytes_doubled_sync`, and goes on with the rest. -/
theorem doubledSyncByteHidesAFrame : Obligations.DoubledSyncByteHidesAFrame := by
  intro s rest hs hfault
  have hsync := runCommands_rxFeed (s := s) hfault (rxBytes_doubled_sync hs)
  exact runCommands_append hsync (rxFeed rest)

/-! ### The sentinel's id on the wire (R135) -/

/-- Settles O27: the eight bytes are the frame ENC builds for the sentinel's id and no payload, which the parser takes
like any other (R82); QPOP answers by the packet alone. -/
theorem sentinelIdIsNotReservedOnTheWire : Obligations.SentinelIdIsNotReservedOnTheWire := by
  refine ⟨fun s hs hfault hempty hroom => ?received, fun s q hfifo => exec_qpop_cons hfifo⟩
  case received =>
    have hwire : rxFrame Config.sentinelId [] = rxFeed [0xB5, 0x62, 0x00, 0x02, 0x00, 0x00, 0x02, 0x06] := by decide
    obtain ⟨t, hrun, hgood, -⟩ := runCommands_rxFrame Config.sentinelId (payload := []) hs hfault (by decide)
      fun _ => hroom
    refine ⟨t, hwire ▸ hrun, ?_, hgood.frc, hgood.state⟩
    simp [hgood.fifo, hempty, filterAdmits, sentinel]

/-! ### RESET (R125) -/

/-- Settles O47: `State.resetWith` gives each field its value, whatever the parameters. -/
theorem resetStateHoldsTheResetValues : Obligations.ResetStateHoldsTheResetValues :=
  fun _ => ⟨rfl, rfl, rfl, rfl, rfl, rfl, rfl, rfl, rfl, rfl, rfl, rfl, rfl, rfl, rfl⟩

/-- Settles O48: RESET comes before everything (`step_of_reset`), and `applyReset` keeps the parameters and the pending
bytes. -/
theorem resetInputRestoresTheResetState : Obligations.ResetInputRestoresTheResetState :=
  ⟨fun _ hreset => step_of_reset hreset, rfl⟩

end Sys2Proof.Machine
end
